-- ==== Sys2Proof/Word.lean ====
section
/-! DEFINITION. The value types of the unit: 32-bit bus words, 7-bit ASCII codes, base-40 digits. -/

namespace Sys2Proof

/-- One host bus word, register or buffer entry: 32 bits (R33, R45, R46, R83). -/
abbrev Word := BitVec 32

/-- One byte of a serialised word stream (R80). -/
abbrev Byte := BitVec 8

/-- A 7-bit ASCII code, the entry type of the alphabet tables (R49). -/
abbrev Code := BitVec 7

/-- A base-40 digit, bounded by its type as R172 asks: a digit of 40 or more cannot be written. -/
abbrev Digit := Fin 40

/-- A host bus address `addr[17:2]`: it counts 32-bit words, so that a misaligned access cannot be
written down (R83, R88). -/
abbrev BusAddr := BitVec 16

end Sys2Proof
end

