-- ==== Sys2Proof/Syntax.lean ====
section
/-! DEFINITION. The two dialects, the six operations and the twelve command words of the opcode table. -/

namespace Sys2Proof

/-- The two dialects (R3). -/
inductive Dialect where
  | pdp11
  | pdp10
  deriving DecidableEq, Repr

/-- The operations of the opcode map (R112). -/
inductive Op where
  | enc
  | encw
  | dec
  | decw
  | alpha
  | lookup
  deriving DecidableEq, Repr

/-- The commands: one constructor per row of the opcode table (R113). A command has no operand
field: its operands are `LEN_IN` and `IN_BUF` (R116). -/
inductive Instr where
  | enc11
  | enc10
  | encw11
  | encw10
  | dec11
  | dec10
  | decw11
  | decw10
  | alpha11
  | alpha10
  | lookup11
  | lookup10
  deriving DecidableEq, Repr

/-- The operation of a command. -/
def Instr.op : Instr → Op
  | .enc11 | .enc10 => .enc
  | .encw11 | .encw10 => .encw
  | .dec11 | .dec10 => .dec
  | .decw11 | .decw10 => .decw
  | .alpha11 | .alpha10 => .alpha
  | .lookup11 | .lookup10 => .lookup

/-- The dialect of a command. -/
def Instr.dialect : Instr → Dialect
  | .enc11 | .encw11 | .dec11 | .decw11 | .alpha11 | .lookup11 => .pdp11
  | .enc10 | .encw10 | .dec10 | .decw10 | .alpha10 | .lookup10 => .pdp10

end Sys2Proof
end

