-- ==== Sys2Proof/Config.lean ====
section
/-! DEFINITION. What is fixed when a unit is built (its parameters), and the free values of the spec. -/

namespace Sys2Proof

/-- What `ENCW` does with more than `N` characters: the parameter `ENCW_OVERLONG` (U1). -/
inductive Overlong where
  | truncate
  | refuse
  deriving DecidableEq, Repr

/-- The parameters and constant tables of one unit (R12, R13, R49; U1, U3, U13). They are data of the
state, so that a statement about every state is one about every unit. The 7-bit entry type is the
rule "every character has ASCII code ≤ 0x7F" (R12, R143). -/
structure Params where
  alphabet11 : List Code
  alphabet10 : List Code
  inDepth : Nat
  outDepth : Nat
  overlong : Overlong
  deriving DecidableEq, Repr

/-- `LATENCY`: the largest number of host accesses between a command's acceptance and its completion
(R15). The spec takes no value for it. -/
opaque Config.latency : Nat

/-- A free value: how long the command accepted at this draw takes (R15, R270; U9). -/
opaque Config.commandDelay : Nat → Nat

/-- A free value: the 32 bits that the spec writes `ANY` (R17; U4 to U8). -/
opaque Config.freeWord : Nat → Word

/-- A free value: the outcome code of a command whose inputs were written while it ran (R266; U6), two
bits because only four codes exist (U14). -/
opaque Config.freeErr : Nat → BitVec 2

/-- A free value: the content of an `OUT_BUF` entry after a command that ended with an error (R46,
R236; U4): the draw, then the entry's index. -/
opaque Config.freeOutEntry : Nat → Nat → Word

end Sys2Proof
end

