-- ==== Sys2Proof/WellFormed.lean ====
section
/-! DEFINITION. Which command words are defined (R113) and which parameters are well formed (R13, R142, R143). -/

namespace Sys2Proof

/-- No bit of `RSV0` (7:4) or `RSV1` (31:9) is set (R111, R115). -/
def reservedClear (v : Word) : Bool := v &&& 0xFFFFFEF0#32 == 0#32

/-- `OP` (bits 3:0) is one of the six operation codes (R112, R114). -/
def opDefined (v : Word) : Bool :=
  let op := v.toNat % 16
  decide (1 ≤ op) && decide (op ≤ 6)

/-- The command word is defined (R113). -/
def commandDefined (v : Word) : Bool := reservedClear v && opDefined v

/-- The entries are pairwise distinct (R143). -/
def distinctCodes : List Code → Bool
  | [] => true
  | c :: cs => !cs.contains c && distinctCodes cs

/-- A printable ASCII code, 0x20 to 0x7E (R143, D2). -/
def printable (c : Code) : Bool := decide (0x20 ≤ c.toNat) && decide (c.toNat ≤ 0x7E)

/-- The table holds the listed (digit, code) entries. -/
def holdsEntries (table : List Code) (entries : List (Nat × Code)) : Bool :=
  entries.all fun e => table[e.1]? == some e.2

/-- The PDP-11 entries that the source's fixtures fix (R142). -/
def pinned11 : List (Nat × Code) :=
  [(0, 0x20#7), (1, 0x41#7), (2, 0x42#7), (3, 0x43#7), (5, 0x45#7),
   (8, 0x48#7), (9, 0x49#7), (19, 0x53#7), (20, 0x54#7), (39, 0x39#7)]

/-- The PDP-10 entries that the source's fixtures fix (R142). -/
def pinned10 : List (Nat × Code) :=
  [(0, 0x20#7), (11, 0x41#7), (12, 0x42#7), (13, 0x43#7), (14, 0x44#7), (15, 0x45#7),
   (16, 0x46#7), (18, 0x48#7), (19, 0x49#7), (29, 0x53#7), (30, 0x54#7)]

/-- A table every dialect may have: 40 entries, distinct, printable (R143). -/
def tableWf (table : List Code) : Bool :=
  table.length == 40 && distinctCodes table && table.all printable

/-- `ALPHABET_PDP11` is well formed: R143, the entries of R142, and `_` in no entry (R142). -/
def alphabet11Wf (table : List Code) : Bool :=
  tableWf table && holdsEntries table pinned11 && !table.contains 0x5F#7

/-- `ALPHABET_PDP10` is well formed: R143 and the entries of R142. -/
def alphabet10Wf (table : List Code) : Bool :=
  tableWf table && holdsEntries table pinned10

/-- The buffer sizes are within the bounds of R13. -/
def depthsWf (inDepth outDepth : Nat) : Bool :=
  decide (1 ≤ inDepth) && decide (inDepth ≤ 16384) &&
    decide (40 ≤ outDepth) && decide (outDepth ≤ 16384)

/-- A configuration a model accepts (R13, R143); any other is refused (U11). -/
def Params.wf (p : Params) : Bool :=
  alphabet11Wf p.alphabet11 && alphabet10Wf p.alphabet10 && depthsWf p.inDepth p.outDepth

end Sys2Proof
end

