-- ==== Sys2Proof/Decode.lean ====
section
/-! DEFINITION. From a 32-bit command word to a command, and back (R110 to R115). -/

namespace Sys2Proof

/-- Why a word is no command, by name (R114, R115). -/
inductive DecodeError where
  /-- A bit of `RSV0` or `RSV1` is set (R115). -/
  | reservedBits
  /-- `OP` is 0x0 or 0x7 to 0xF (R114). -/
  | reservedOp (op : BitVec 4)
  deriving DecidableEq, Repr

/-- `CMD[3:0]`, the operation code (R34, R111). -/
def opField (v : Word) : BitVec 4 := v.extractLsb' 0 4

/-- `CMD[8]`, the dialect (R34, R111): 0 is PDP-11, 1 is PDP-10 (R11). -/
def dialectField (v : Word) : Dialect := if v.getLsbD 8 then .pdp10 else .pdp11

/-- `CMD[7:4]` and `CMD[31:9]` (R34, R113). -/
def reservedField (v : Word) : Word := v &&& 0xFFFFFEF0#32

/-- The operation a code names (R112). -/
def opOfCode (c : BitVec 4) : Option Op :=
  if c = 1#4 then some .enc
  else if c = 2#4 then some .encw
  else if c = 3#4 then some .dec
  else if c = 4#4 then some .decw
  else if c = 5#4 then some .alpha
  else if c = 6#4 then some .lookup
  else none

/-- The command of an operation and a dialect. -/
def Instr.ofParts : Op → Dialect → Instr
  | .enc, .pdp11 => .enc11
  | .enc, .pdp10 => .enc10
  | .encw, .pdp11 => .encw11
  | .encw, .pdp10 => .encw10
  | .dec, .pdp11 => .dec11
  | .dec, .pdp10 => .dec10
  | .decw, .pdp11 => .decw11
  | .decw, .pdp10 => .decw10
  | .alpha, .pdp11 => .alpha11
  | .alpha, .pdp10 => .alpha10
  | .lookup, .pdp11 => .lookup11
  | .lookup, .pdp10 => .lookup10

/-- The command a word stands for, or why it stands for none (R113 to R115). Total on every word. -/
def decode (v : Word) : Except DecodeError Instr :=
  if reservedField v ≠ 0#32 then .error .reservedBits
  else match opOfCode (opField v) with
    | none => .error (.reservedOp (opField v))
    | some op => .ok (Instr.ofParts op (dialectField v))

/-- The code of an operation (R112). -/
def Op.code : Op → Nat
  | .enc => 1
  | .encw => 2
  | .dec => 3
  | .decw => 4
  | .alpha => 5
  | .lookup => 6

/-- The `D` code of a dialect (R11). -/
def Dialect.code : Dialect → Nat
  | .pdp11 => 0
  | .pdp10 => 1

/-- The command word `(D << 8) | OP` (R113). -/
def encode (i : Instr) : Word :=
  BitVec.ofNat 32 i.dialect.code <<< 8 ||| BitVec.ofNat 32 i.op.code

/-- The 32-bit word of an instruction given by its low `nbits` bits, the bits above them 0. -/
def tableWord (nbits w : Nat) : Word := BitVec.ofNat 32 (w % 2 ^ nbits)

/-- What the decoder reads from an instruction whose bits are `w`. Every command is 32 bits (R110), so
a longer one is none. -/
def decodeTableWord (nbits w : Nat) : Option Instr :=
  if 32 < nbits then none
  else match decode (tableWord nbits w) with
    | .ok i => some i
    | .error _ => none

end Sys2Proof
end

