-- ==== Sys2Proof/Machine/Tables.lean ====
section
/-! DEFINITION. The default tables and sizes of a unit (R13, R140, R141) and the access to a table by dialect (R20). -/

namespace Sys2Proof

/-- `n` codes in a row from `first`. -/
def codeRun (first n : Nat) : List Code := (List.range n).map fun k => BitVec.ofNat 7 (first + k)

/-- The default `ALPHABET_PDP11` (R140): space, `A`–`Z`, `$`, `.`, `%`, `0`–`9`. PRESUMED by the spec
itself (K1). -/
def defaultAlphabet11 : List Code :=
  [0x20#7] ++ codeRun 0x41 26 ++ [0x24#7, 0x2E#7, 0x25#7] ++ codeRun 0x30 10

/-- The default `ALPHABET_PDP10` (R141): space, `0`–`9`, `A`–`Z`, `.`, `$`, `%`. PRESUMED by the spec
itself (K2). -/
def defaultAlphabet10 : List Code :=
  [0x20#7] ++ codeRun 0x30 10 ++ codeRun 0x41 26 ++ [0x2E#7, 0x24#7, 0x25#7]

/-- The parameters of a unit built with every default (R13, R140, R141; U1). -/
def Params.default : Params where
  alphabet11 := defaultAlphabet11
  alphabet10 := defaultAlphabet10
  inDepth := 1024
  outDepth := 6144
  overlong := .truncate

/-- `ALPHABET_D` (R20). -/
def Params.alphabet (p : Params) : Dialect → List Code
  | .pdp11 => p.alphabet11
  | .pdp10 => p.alphabet10

end Sys2Proof
end

