-- ==== Sys2Proof/Machine/State.lean ====
section
/-! DEFINITION. The state of the unit and of its host port, the state after reset, and the reasons a step can stop. -/

namespace Sys2Proof.Machine

/-- The outcome codes of `STATUS.ERR` (R39). No other code can be written down (U14). -/
inductive ErrCode where
  | none
  | illegalChar
  | illegalCmd
  | length
  deriving DecidableEq, Repr

/-- A buffer: its entries that hold a value, as (index, value), the index strictly rising. An entry not
listed holds no value (R45, R46, R261). -/
abbrev Buf := List (Nat × Word)

/-- What the outside can do to the unit: the two bus accesses (R84, R85), the host's wait loop `POLL`
(R119), and the reset input (R260). A `pause` is the model's own: no access and no reset until the
running command has completed, so that a schedule can say whether a reset comes before or after the
completion step. -/
inductive HostAction where
  | read (addr : BusAddr)
  | write (addr : BusAddr) (v : Word)
  | poll
  | pause
  | reset
  deriving DecidableEq, Repr

/-- The state. The first fields are the unit's (R30, R33, R47); the last six are the model's own: the
free values drawn, the hazard of R266, the latency of R15 and the two sides of the host port. -/
structure State where
  /-- The constant tables, `IN_DEPTH_REG`, `OUT_DEPTH_REG` and `ENCW_OVERLONG` (R44, R49; U1). -/
  params : Params
  /-- `STATUS.BUSY` (R37). -/
  busy : Bool
  /-- `STATUS.DONE` (R38). -/
  done : Bool
  /-- `STATUS.ERR` (R39). -/
  err : ErrCode
  /-- `LEN_IN` (R40). -/
  lenIn : Word
  /-- `LEN_OUT` (R41). -/
  lenOut : Word
  /-- `ERR_CHAR` (R42). -/
  errChar : Word
  /-- `ERR_POS` (R43). -/
  errPos : Word
  /-- `IN_BUF` (R45). -/
  inBuf : Buf
  /-- `OUT_BUF` (R46). -/
  outBuf : Buf
  /-- `CUR_CMD`, the hidden latch (R47). -/
  curCmd : Word
  /-- The model's own: the draw that the unlisted entries of `OUT_BUF` hold since a command ended with
  an error (R46, R236), or none while they hold no value. -/
  outDraw : Option Nat
  /-- The model's own: `LEN_IN` or an `IN_BUF` entry was written while the command accepted last ran
  (R266). -/
  inputsTouched : Bool
  /-- The model's own: the host accesses that still complete before the completion step (R15). -/
  delay : Nat
  /-- The model's own: how many free values were drawn so far. -/
  draws : Nat
  /-- The model's own: the host's actions still to come, in issue order (R94). -/
  pending : List HostAction
  /-- The model's own: the host's reads, as (byte offset, value returned), the newest first. -/
  replies : List (Nat × Word)
  deriving DecidableEq, Repr

/-- The state after reset (R261) of a unit built with the default parameters. `CUR_CMD` is unspecified
there: 0 is a DESIGN CHOICE, as are the values of the model's own fields. -/
def State.reset : State where
  params := Params.default
  busy := false
  done := false
  err := .none
  lenIn := 0#32
  lenOut := 0#32
  errChar := 0#32
  errPos := 0#32
  inBuf := []
  outBuf := []
  curCmd := 0#32
  outDraw := Option.none
  inputsTouched := false
  delay := 0
  draws := 0
  pending := []
  replies := []

/-- The reasons the machine stops with a fault. -/
inductive Fault where
  /-- A command reads the `IN_BUF` entry `index`, not written since reset. Raised by `ENC`, `ENCW`,
  `DEC`, `DECW` and `LOOKUP` (R45: "A model should treat a command that reads such an entry as a
  fault"; U5). Safe: the unit goes on with a value nothing pins down. -/
  | unwrittenInput (index : Nat)
  deriving DecidableEq, Repr

/-- The reasons the model gives no meaning. -/
inductive Refusal where
  /-- The instruction has no meaning yet. Raised by `exec` alone. Safe. -/
  | notModelled (mnemonic : String)
  /-- The configuration is ill formed. Raised by `step` (R143: "A model should refuse a configuration
  that breaks any of them"; U11). Safe. -/
  | parameters
  /-- More than `N` characters for `ENCW` in a unit whose parameter `ENCW_OVERLONG` is `REFUSE` (U1).
  Raised by `ENCW` in such a unit only, never with the default. Safe. -/
  | encwOverlong
  deriving DecidableEq, Repr

end Sys2Proof.Machine
end

