-- ==== Sys2Proof/Machine/Flags.lean ====
section
/-! DEFINITION. The codes of `STATUS.ERR` and the `STATUS` word as read (R36, R39, R84). -/

namespace Sys2Proof.Machine

/-- The 4-bit code of an outcome in `STATUS[7:4]` (R39). -/
def ErrCode.code : ErrCode → BitVec 4
  | .none => 0#4
  | .illegalChar => 1#4
  | .illegalCmd => 2#4
  | .length => 3#4

/-- The outcome of two free bits: each of the four codes, and no other (R266; U14). -/
def ErrCode.ofBits (b : BitVec 2) : ErrCode :=
  if b = 0#2 then .none
  else if b = 1#2 then .illegalChar
  else if b = 2#2 then .illegalCmd
  else .length

/-- A flag as the word 0 or 1. -/
def flagWord (b : Bool) : Word := if b then 1#32 else 0#32

/-- `STATUS` as read: `zext_32(ERR) << 4 | DONE << 1 | BUSY` (R36, R84). -/
def State.statusWord (s : State) : Word :=
  s.err.code.setWidth 32 <<< 4 ||| flagWord s.done <<< 1 ||| flagWord s.busy

end Sys2Proof.Machine
end

