-- ==== Sys2Proof/Machine/Ops.lean ====
section
/-! DEFINITION. The named operations on buffers and registers: free draws, acceptance, completion and reset
(R84, R85, R235, R236, R261, R266). -/

namespace Sys2Proof.Machine

/-- The value an entry holds, if it holds one (R45, R46). -/
def Buf.read : Buf → Nat → Option Word
  | [], _ => none
  | (j, w) :: b, i => if i = j then some w else Buf.read b i

/-- Entry `i` takes the value `v`; every other entry keeps what it held. -/
def Buf.write : Buf → Nat → Word → Buf
  | [], i, v => [(i, v)]
  | (j, w) :: b, i, v =>
    if i < j then (i, v) :: (j, w) :: b
    else if i = j then (i, v) :: b
    else (j, w) :: Buf.write b i v

/-- The entries from `i` on take the values of the list, in order (R236). -/
def Buf.writeFrom : Buf → Nat → List Word → Buf
  | b, _, [] => b
  | b, i, v :: vs => Buf.writeFrom (Buf.write b i v) (i + 1) vs

/-- The canonical form of a buffer of `depth` entries: every index at least `low` and below `depth`,
strictly rising. No listed entry equals what an unlisted one holds, which is no value. -/
def Buf.wfFrom (depth : Nat) : Nat → Buf → Bool
  | _, [] => true
  | low, (j, _) :: b => decide (low ≤ j) && decide (j < depth) && Buf.wfFrom depth (j + 1) b

/-- The canonical form of a buffer of `depth` entries. -/
def Buf.wf (depth : Nat) (b : Buf) : Bool := Buf.wfFrom depth 0 b

/-- Both buffers have their canonical form. -/
def State.memoryWf (s : State) : Bool :=
  Buf.wf s.params.inDepth s.inBuf && Buf.wf s.params.outDepth s.outBuf

/-- One free value was drawn. -/
def State.drawn (s : State) : State := { s with draws := s.draws + 1 }

/-- A free 32-bit value and the state after drawing it: the spec's `ANY` (R17). -/
def State.anyWord (s : State) : Word × State := (Config.freeWord s.draws, s.drawn)

/-- The latch and the flags of an accepted command (R235); `delay` host accesses will complete before
its completion step (R15). -/
def State.accepted (s : State) (v : Word) (delay : Nat) : State :=
  { s with
    curCmd := v, busy := true, done := false, err := .none
    lenOut := 0#32, errChar := 0#32, errPos := 0#32
    inputsTouched := false, delay := delay }

/-- `AcceptCommand(v)` (R235): dropped while busy; otherwise accepted, with a free latency of at most
`LATENCY` (R15; U9). -/
def State.acceptCommand (s : State) (v : Word) : State :=
  if s.busy then s
  else (s.accepted v (Config.commandDelay s.draws % (Config.latency + 1))).drawn

/-- The error outcomes of a command (R230 to R232). -/
inductive CmdError where
  | illegalChar (char : Word) (pos : Nat)
  | illegalCmd
  | length
  deriving DecidableEq, Repr

/-- The outcome of a command: its output entries, or its error (R236). -/
inductive CmdResult where
  | ok (out : List Word)
  | err (e : CmdError)
  deriving DecidableEq, Repr

/-- The `STATUS.ERR` code of an error (R39). -/
def CmdError.errCode : CmdError → ErrCode
  | .illegalChar _ _ => .illegalChar
  | .illegalCmd => .illegalCmd
  | .length => .length

/-- The `ERR_CHAR` of an error (R42, R230 to R232). -/
def CmdError.errChar : CmdError → Word
  | .illegalChar c _ => c
  | .illegalCmd => 0#32
  | .length => 0#32

/-- The `ERR_POS` of an error (R43, R230 to R232). -/
def CmdError.errPos : CmdError → Word
  | .illegalChar _ p => BitVec.ofNat 32 p
  | .illegalCmd => 0#32
  | .length => 0#32

/-- Completion with the outputs `out` (R236): entries at or above their count are left as they were. -/
def State.finishOk (s : State) (out : List Word) : State :=
  { s with
    outBuf := Buf.writeFrom s.outBuf 0 out, lenOut := BitVec.ofNat 32 out.length
    err := .none, errChar := 0#32, errPos := 0#32, busy := false, done := true }

/-- Completion with an error (R236): every `OUT_BUF` entry holds a free value from then on (U4). -/
def State.finishErr (s : State) (e : CmdError) : State :=
  { s with
    err := e.errCode, errChar := e.errChar, errPos := e.errPos, lenOut := 0#32
    outBuf := [], outDraw := some s.draws, draws := s.draws + 1, busy := false, done := true }

/-- Completion of a command whose inputs the host wrote while it ran (R266; U6): `BUSY` and `DONE` as
usual, every result a free value. -/
def State.finishAny (s : State) : State :=
  { s with
    err := ErrCode.ofBits (Config.freeErr s.draws)
    lenOut := Config.freeWord s.draws
    errChar := Config.freeWord (s.draws + 1)
    errPos := Config.freeWord (s.draws + 2)
    outBuf := [], outDraw := some s.draws, draws := s.draws + 3, busy := false, done := true }

/-- What completion writes for a command's outcome (R236). -/
def State.finish (s : State) : CmdResult → State
  | .ok out => s.finishOk out
  | .err e => s.finishErr e

/-- What a command computes from the state: its outcome, or the model's reason to stop. -/
abbrev Eval := Host.Outcome CmdResult Fault Refusal

/-- `Complete()` (R236), the unit's one step, once the command's outcome is computed. The hazard of R266
comes first: it says how the command completes whatever it computed. -/
def State.complete (s : State) (e : Eval) : Host.Outcome State Fault Refusal :=
  if s.inputsTouched then .next s.finishAny
  else match e with
    | .next r => .next (s.finish r)
    | .fault f => .fault f
    | .refused r => .refused r

/-- The completion of a word that is no command (R114, R115, R231). -/
def completeUndefined (s : State) : Host.Outcome State Fault Refusal :=
  s.complete (.next (.err .illegalCmd))

/-- `Reset()` (R261): the unit's registers; no entry holds a value; `CUR_CMD` is a free value (U8). A
running command is abandoned (R263). The constant tables and the host's side stay. -/
def State.resetUnit (s : State) : State :=
  { s with
    busy := false, done := false, err := .none
    lenIn := 0#32, lenOut := 0#32, errChar := 0#32, errPos := 0#32
    inBuf := [], outBuf := [], curCmd := Config.freeWord s.draws
    outDraw := none, inputsTouched := false, delay := 0, draws := s.draws + 1 }

/-- The host writes `LEN_IN` (R40); while a command runs, this is the hazard of R266. -/
def State.writeLenIn (s : State) (v : Word) : State :=
  { s with lenIn := v, inputsTouched := s.inputsTouched || s.busy }

/-- The host writes `IN_BUF[i]` (R45); while a command runs, this is the hazard of R266. -/
def State.writeInBuf (s : State) (i : Nat) (v : Word) : State :=
  { s with inBuf := Buf.write s.inBuf i v, inputsTouched := s.inputsTouched || s.busy }

/-- The host receives `v` from a read at byte offset `off`. -/
def State.reply (s : State) (off : Nat) (v : Word) : State :=
  { s with replies := (off, v) :: s.replies }

/-- The host has taken up its next action: `rest` are the actions after it, and the running command's
delay is one access shorter (R15). -/
def State.hostTakes (s : State) (rest : List HostAction) : State :=
  { s with pending := rest, delay := s.delay - 1 }

/-- The state with `LEN_IN` as given. -/
def State.withLenIn (s : State) (v : Word) : State := { s with lenIn := v }

/-- The state with `IN_BUF` as given. -/
def State.withInBuf (s : State) (b : Buf) : State := { s with inBuf := b }

/-- The host's actions still to come are `todo`. -/
def State.withPending (s : State) (todo : List HostAction) : State := { s with pending := todo }

end Sys2Proof.Machine
end

