-- ==== Sys2Proof/Machine/Bus.lean ====
section
/-! DEFINITION. The host port: the register map, host reads and writes, the hazards while busy, and the
host programs of the spec (20_memory.md, 70_reset_and_hazards.md, 30_encoding.md section 5). -/

namespace Sys2Proof.Machine

/-- What a byte offset of the register space names (R33, R82). -/
inductive Target where
  | cmd
  | status
  | lenIn
  | lenOut
  | errChar
  | errPos
  | inDepth
  | outDepth
  | inBuf (i : Nat)
  | outBuf (i : Nat)
  | unmapped
  deriving DecidableEq, Repr

/-- The register map (R33, R82, R86). -/
def target (p : Params) (off : Nat) : Target :=
  if off = 0x00000 then .cmd
  else if off = 0x00004 then .status
  else if off = 0x00008 then .lenIn
  else if off = 0x0000C then .lenOut
  else if off = 0x00010 then .errChar
  else if off = 0x00014 then .errPos
  else if off = 0x00018 then .inDepth
  else if off = 0x0001C then .outDepth
  else if 0x10000 ≤ off ∧ off < 0x10000 + 4 * p.inDepth then .inBuf ((off - 0x10000) / 4)
  else if 0x20000 ≤ off ∧ off < 0x20000 + 4 * p.outDepth then .outBuf ((off - 0x20000) / 4)
  else .unmapped

/-- The byte offset that a bus address reaches (R83). -/
def byteOffset (a : BusAddr) : Nat := 4 * a.toNat

/-- The bus address of a byte offset, `off[17:2]` (R83). -/
def busAddr (off : Nat) : BusAddr := BitVec.ofNat 16 (off / 4)

/-- The read of a result register: a free value while a command runs (R267; U7). -/
def State.readResult (s : State) (stored : Word) : Word × State :=
  if s.busy then s.anyWord else (stored, s)

/-- The read of an `IN_BUF` entry: a free value if it holds none (R45, R84). -/
def State.readInBuf (s : State) (i : Nat) : Word × State :=
  match Buf.read s.inBuf i with
  | some v => (v, s)
  | none => s.anyWord

/-- What an `OUT_BUF` entry gives while no command runs (R46, R84): the value it holds; the free value it
holds since an error; a free value if it holds none. -/
def State.readOutBufIdle (s : State) (i : Nat) : Word × State :=
  match Buf.read s.outBuf i with
  | some v => (v, s)
  | none =>
    match s.outDraw with
    | some k => (Config.freeOutEntry k i, s)
    | none => s.anyWord

/-- The read of an `OUT_BUF` entry: a free value while a command runs (R267). -/
def State.readOutBuf (s : State) (i : Nat) : Word × State :=
  if s.busy then s.anyWord else s.readOutBufIdle i

/-- `MemRead(off)` (R84, R86, R267): the value returned, and the state, in which at most a free value
was drawn. -/
def State.memRead (s : State) (off : Nat) : Word × State :=
  match target s.params off with
  | .cmd => (0#32, s)
  | .status => (s.statusWord, s)
  | .lenIn => (s.lenIn, s)
  | .lenOut => s.readResult s.lenOut
  | .errChar => s.readResult s.errChar
  | .errPos => s.readResult s.errPos
  | .inDepth => (BitVec.ofNat 32 s.params.inDepth, s)
  | .outDepth => (BitVec.ofNat 32 s.params.outDepth, s)
  | .inBuf i => s.readInBuf i
  | .outBuf i => s.readOutBuf i
  | .unmapped => (0#32, s)

/-- `MemWrite(off, v)` (R85, R86, R87): only `CMD`, `LEN_IN` and `IN_BUF` take a write. -/
def State.memWrite (s : State) (off : Nat) (v : Word) : State :=
  match target s.params off with
  | .cmd => s.acceptCommand v
  | .lenIn => s.writeLenIn v
  | .inBuf i => s.writeInBuf i v
  | .status | .lenOut | .errChar | .errPos | .inDepth | .outDepth | .outBuf _ | .unmapped => s

/-- A host read, with the value handed to the host. -/
def State.busRead (s : State) (off : Nat) : State :=
  let r := s.memRead off
  r.2.reply off r.1

/-- The host performs `a`; `rest` are its actions after it (R94). A `poll` reads `STATUS` and stays the
next action while it finds `BUSY` = 1 (R119). A `pause` and a reset are no accesses, so they count in
no latency (R15). -/
def State.hostTurn (s : State) (a : HostAction) (rest : List HostAction) : State :=
  match a with
  | .read addr => (s.hostTakes rest).busRead (byteOffset addr)
  | .write addr v => (s.hostTakes rest).memWrite (byteOffset addr) v
  | .poll => (s.hostTakes (if s.busy then .poll :: rest else rest)).busRead 0x00004
  | .pause => s.withPending rest
  | .reset => (s.withPending rest).resetUnit

/-- Who moves next. -/
inductive Move where
  | unit
  | host (a : HostAction) (rest : List HostAction)
  | idle
  deriving DecidableEq, Repr

/-- The unit's completion step comes before the host's next action `a`: a command runs, and the action is
a `pause`, or an access that finds the delay over (R15, R94). A reset never waits: it may fall between
any two other steps (R260). -/
abbrev State.unitFirst (s : State) (a : HostAction) : Prop :=
  s.busy = true ∧ (a = .pause ∨ a ≠ .reset ∧ s.delay = 0)

/-- Who moves next (R22, R94, R236): the unit when a command runs and its completion comes before the
host's next action, or the host has none; else the host; with neither, nothing changes (R246). -/
def State.nextMove (s : State) : Move :=
  match s.pending with
  | [] => if s.busy then .unit else .idle
  | a :: rest => if s.unitFirst a then .unit else .host a rest

/-- `WR off, v` (R118). -/
def wr (off : Nat) (v : Word) : HostAction := .write (busAddr off) v

/-- `RD off` (R118). -/
def rd (off : Nat) : HostAction := .read (busAddr off)

/-- `WR IN_BUF[k], v` for the values of the list, from index `k` on (R119). -/
def loadEntries : Nat → List Word → List HostAction
  | _, [] => []
  | k, v :: vs => wr (0x10000 + 4 * k) v :: loadEntries (k + 1) vs

/-- `LOADS` and `LOADW` (R119): the length, then the entries. -/
def load (vs : List Word) : List HostAction :=
  wr 0x00008 (BitVec.ofNat 32 vs.length) :: loadEntries 0 vs

/-- `GO m.d` (R119). -/
def go (i : Instr) : List HostAction := [wr 0x00000 (encode i)]

/-- `RUN m.d` (R119). -/
def runCommand (i : Instr) : List HostAction := go i ++ [.poll]

end Sys2Proof.Machine
end

