-- ==== Sys2Proof/Machine/Operands.lean ====
section
/-! DEFINITION. The operand forms of the commands (R11, R20, R116, R195). -/

namespace Sys2Proof

/-- `N`, the characters per word (R11). -/
def Dialect.chars : Dialect → Nat
  | .pdp11 => 3
  | .pdp10 => 6

/-- `W`, the word width in bits (R11). -/
def Dialect.width : Dialect → Nat
  | .pdp11 => 16
  | .pdp10 => 32

/-- `ceil_div(a, b)` (R17). -/
def ceilDiv (a b : Nat) : Nat := (a + b - 1) / b

namespace Machine

/-- `L`, the value of `LEN_IN` (R116). -/
def State.len (s : State) : Nat := s.lenIn.toNat

/-- The `n` entries of a buffer from index `i` on, or the index of the first that holds no value. -/
def Buf.readFrom (b : Buf) : Nat → Nat → Except Nat (List Word)
  | _, 0 => .ok []
  | i, n + 1 =>
    match Buf.read b i with
    | none => .error i
    | some w =>
      match Buf.readFrom b (i + 1) n with
      | .error j => .error j
      | .ok ws => .ok (w :: ws)

/-- A command's outcome from `IN_BUF[0 .. n-1]`; a fault if one of them was never written since reset
(R45; U5). -/
def State.withInputs (s : State) (n : Nat) (f : List Word → CmdResult) : Eval :=
  match Buf.readFrom s.inBuf 0 n with
  | .error i => .fault (.unwrittenInput i)
  | .ok ws => .next (f ws)

/-- A word operand: the low `W` bits of an entry (R195). -/
def wordOperand (d : Dialect) (entry : Word) : BitVec d.width := entry.setWidth d.width

end Machine

end Sys2Proof
end

