-- ==== Sys2Proof/Machine/Codec.lean ====
section
/-! DEFINITION. The codec's pure functions: alphabet inversion, lookup, pack, unpack, encode, decode
(40_alphabet.md, 41_base40.md, 42_word_ops.md, 43_string_ops.md). -/

namespace Sys2Proof

/-- `Invert(A)` (R144): the 128-entry table from code to optional digit. -/
def invert (table : List Code) : List (Option Digit) :=
  (table.zip (List.finRange 40)).foldl (fun t e => t.set e.1.toNat (some e.2)) (List.replicate 128 none)

/-- `INV_D` (R20, R144), which a model may treat as this constant (R146). -/
def Params.inverse (p : Params) (d : Dialect) : List (Option Digit) := invert (p.alphabet d)

/-- The source's one error: the character and its 1-based position (R21, R147). -/
structure IllegalChar where
  char : Word
  pos : Nat
  deriving DecidableEq, Repr

/-- `Lookup(D, c, pos)` (R147): the test against 0x7F comes first, on all 32 bits (D32); the position is
recorded as given (R148). -/
def lookup (p : Params) (d : Dialect) (c : Word) (pos : Nat) : Except IllegalChar Digit :=
  if 0x7F < c.toNat then .error { char := c, pos := pos }
  else match (p.inverse d).getD c.toNat none with
    | none => .error { char := c, pos := pos }
    | some i => .ok i

/-- The digits of the characters of a chunk, the first at local position `pos`; the first illegal
character ends it (R190, R191). -/
def lookupAll (p : Params) (d : Dialect) : Nat → List Word → Except IllegalChar (List Digit)
  | _, [] => .ok []
  | pos, c :: cs =>
    match lookup p d c pos with
    | .error e => .error e
    | .ok i =>
      match lookupAll p d (pos + 1) cs with
      | .error e => .error e
      | .ok is => .ok (i :: is)

/-- The accumulation `v <- v * 40 + d[k]` from the first digit to the last (R171). -/
def packValue (digits : List Digit) : Nat := digits.foldl (fun v i => v * 40 + i.val) 0

/-- `Pack(D, d)` (R171): the value as a `W`-bit word. -/
def pack (d : Dialect) (digits : List Digit) : BitVec d.width := BitVec.ofNat d.width (packValue digits)

/-- One digit of a value: `x mod 40` (R173). -/
def digitOf (x : Nat) : Digit := ⟨x % 40, Nat.mod_lt x (by decide)⟩

/-- `Unpack(D, v)` (R173), total over all `W`-bit words (R174). -/
def unpack (d : Dialect) (v : BitVec d.width) : List Digit :=
  (List.range d.chars).map fun k => digitOf (v.toNat / 40 ^ (d.chars - 1 - k))

/-- The space that stands for a missing character (R21, R190). -/
def padChar : Word := 0x20#32

/-- The `N` characters of a chunk, missing ones replaced by spaces; characters beyond `N` are not looked
at (R190, R193). -/
def padded (d : Dialect) (chunk : List Word) : List Word :=
  (List.range d.chars).map fun k => chunk.getD k padChar

/-- `EncodeWord(D, s)` (R190). -/
def encodeWord (p : Params) (d : Dialect) (chunk : List Word) : Except IllegalChar (BitVec d.width) :=
  match lookupAll p d 1 (padded d chunk) with
  | .error e => .error e
  | .ok digits => .ok (pack d digits)

/-- Chunk `i` of a string (R210). -/
def chunkAt (d : Dialect) (s : List Word) (i : Nat) : List Word := (s.drop (i * d.chars)).take d.chars

/-- The words of `n` chunks from chunk `i` on; an error at local position `p` of chunk `i` is one at
position `i·N + p` of the string (R211, R212). -/
def encodeChunks (p : Params) (d : Dialect) (s : List Word) :
    Nat → Nat → Except IllegalChar (List (BitVec d.width))
  | _, 0 => .ok []
  | i, n + 1 =>
    match encodeWord p d (chunkAt d s i) with
    | .error e => .error { char := e.char, pos := i * d.chars + e.pos }
    | .ok w =>
      match encodeChunks p d s (i + 1) n with
      | .error e => .error e
      | .ok ws => .ok (w :: ws)

/-- `Encode(D, s)` (R211). -/
def encodeString (p : Params) (d : Dialect) (s : List Word) :
    Except IllegalChar (List (BitVec d.width)) :=
  encodeChunks p d s 0 (ceilDiv s.length d.chars)

/-- `ALPHABET_D[i]` (R20). A well-formed table has all 40 entries (R143). -/
def Params.charOf (p : Params) (d : Dialect) (i : Digit) : Code := (p.alphabet d).getD i.val 0#7

/-- `DecodeWord(D, v)` (R196). -/
def decodeWord (p : Params) (d : Dialect) (v : BitVec d.width) : List Code :=
  (unpack d v).map (p.charOf d)

/-- `Decode(D, ws)` (R216). -/
def decodeString (p : Params) (d : Dialect) (ws : List (BitVec d.width)) : List Code :=
  ws.flatMap (decodeWord p d)

/-- `zext_32` of a word (R46, D11). -/
def wordEntry {d : Dialect} (w : BitVec d.width) : Word := w.setWidth 32

/-- `zext_32` of a character (R46, D11). -/
def codeEntry (c : Code) : Word := c.setWidth 32

/-- `zext_32` of a digit (R46, D11). -/
def digitEntry (i : Digit) : Word := BitVec.ofNat 32 i.val

/-- The bytes of a word as a collaborator serialises it, most significant first (R80): 2 of a PDP-11
word, 4 of a PDP-10 word; byte `k` is `w[W−1−8k : W−8−8k]`. The unit itself holds no bytes (R81). -/
def serializeWord (d : Dialect) (w : BitVec d.width) : List Byte :=
  (List.range (d.width / 8)).map fun k => BitVec.ofNat 8 (w.toNat / 2 ^ (d.width - 8 - 8 * k))

/-- The bytes of a word stream (R80). -/
def serialize (d : Dialect) (ws : List (BitVec d.width)) : List Byte := ws.flatMap (serializeWord d)

end Sys2Proof
end

