-- ==== Sys2Proof/Machine/Alphabet.lean ====
section
/-! DEFINITION. The commands `ALPHA` and `LOOKUP` (40_alphabet.md). -/

namespace Sys2Proof.Machine

/-- `ExecALPHA(D)` (R149). -/
def evalAlpha (d : Dialect) (s : State) : Eval :=
  .next (.ok ((List.finRange 40).map fun i => codeEntry (s.params.charOf d i)))

/-- The outcome a lookup of one character gives (R150). -/
def lookupResult (p : Params) (d : Dialect) (entries : List Word) : CmdResult :=
  match lookup p d (entries.getD 0 0#32) 1 with
  | .error e => .err (.illegalChar e.char e.pos)
  | .ok i => .ok [digitEntry i]

/-- `ExecLOOKUP(D, L, IN_BUF)` (R150). -/
def evalLookup (d : Dialect) (s : State) : Eval :=
  if s.params.inDepth < s.len ∨ s.len ≠ 1 then .next (.err .length)
  else s.withInputs 1 (lookupResult s.params d)

/-- `ALPHA.11`, word 0x00000005 (R149). -/
def execAlpha11 (s : State) : Host.Outcome State Fault Refusal := s.complete (evalAlpha .pdp11 s)

/-- `ALPHA.10`, word 0x00000105 (R149). -/
def execAlpha10 (s : State) : Host.Outcome State Fault Refusal := s.complete (evalAlpha .pdp10 s)

/-- `LOOKUP.11`, word 0x00000006 (R150). -/
def execLookup11 (s : State) : Host.Outcome State Fault Refusal := s.complete (evalLookup .pdp11 s)

/-- `LOOKUP.10`, word 0x00000106 (R150). -/
def execLookup10 (s : State) : Host.Outcome State Fault Refusal := s.complete (evalLookup .pdp10 s)

end Sys2Proof.Machine
end

