-- ==== Sys2Proof/Machine/StringOps.lean ====
section
/-! DEFINITION. The string commands `ENC` and `DEC` (43_string_ops.md). -/

namespace Sys2Proof.Machine

/-- The outcome an encode of a string gives (R213, R215). -/
def encodeResult (p : Params) (d : Dialect) (cs : List Word) : CmdResult :=
  match encodeString p d cs with
  | .error e => .err (.illegalChar e.char e.pos)
  | .ok ws => .ok (ws.map wordEntry)

/-- `ExecENC(D, L, IN_BUF)` (R213). -/
def evalEnc (d : Dialect) (s : State) : Eval :=
  if s.params.inDepth < s.len then .next (.err .length)
  else if s.params.outDepth < ceilDiv s.len d.chars then .next (.err .length)
  else s.withInputs s.len (encodeResult s.params d)

/-- The outcome a decode of word entries gives (R195, R217). -/
def decodeResult (p : Params) (d : Dialect) (entries : List Word) : CmdResult :=
  .ok ((decodeString p d (entries.map (wordOperand d))).map codeEntry)

/-- `ExecDEC(D, L, IN_BUF)` (R217). -/
def evalDec (d : Dialect) (s : State) : Eval :=
  if s.params.inDepth < s.len then .next (.err .length)
  else if s.params.outDepth < s.len * d.chars then .next (.err .length)
  else s.withInputs s.len (decodeResult s.params d)

/-- `ENC.11`, word 0x00000001 (R213). -/
def execEnc11 (s : State) : Host.Outcome State Fault Refusal := s.complete (evalEnc .pdp11 s)

/-- `ENC.10`, word 0x00000101 (R213). -/
def execEnc10 (s : State) : Host.Outcome State Fault Refusal := s.complete (evalEnc .pdp10 s)

/-- `DEC.11`, word 0x00000003 (R217). -/
def execDec11 (s : State) : Host.Outcome State Fault Refusal := s.complete (evalDec .pdp11 s)

/-- `DEC.10`, word 0x00000103 (R217). -/
def execDec10 (s : State) : Host.Outcome State Fault Refusal := s.complete (evalDec .pdp10 s)

end Sys2Proof.Machine
end

