-- ==== Sys2Proof/Machine/WordOps.lean ====
section
/-! DEFINITION. The single-word commands `ENCW` and `DECW` (42_word_ops.md). -/

namespace Sys2Proof.Machine

/-- The outcome an encode of one chunk gives (R192). -/
def encodeWordResult (p : Params) (d : Dialect) (cs : List Word) : CmdResult :=
  match encodeWord p d cs with
  | .error e => .err (.illegalChar e.char e.pos)
  | .ok w => .ok [wordEntry w]

/-- `ExecENCW(D, L, IN_BUF)` (R192): more than `N` characters are truncated (R193), unless the unit's
parameter `ENCW_OVERLONG` is `REFUSE` (U1). -/
def evalEncw (d : Dialect) (s : State) : Eval :=
  if s.params.inDepth < s.len then .next (.err .length)
  else if d.chars < s.len ∧ s.params.overlong = .refuse then .refused .encwOverlong
  else s.withInputs (min s.len d.chars) (encodeWordResult s.params d)

/-- The outcome a decode of one word entry gives (R195, R197). -/
def decodeWordResult (p : Params) (d : Dialect) (entries : List Word) : CmdResult :=
  .ok ((decodeWord p d (wordOperand d (entries.getD 0 0#32))).map codeEntry)

/-- `ExecDECW(D, L, IN_BUF)` (R197). -/
def evalDecw (d : Dialect) (s : State) : Eval :=
  if s.params.inDepth < s.len ∨ s.len ≠ 1 then .next (.err .length)
  else s.withInputs 1 (decodeWordResult s.params d)

/-- `ENCW.11`, word 0x00000002 (R192). -/
def execEncw11 (s : State) : Host.Outcome State Fault Refusal := s.complete (evalEncw .pdp11 s)

/-- `ENCW.10`, word 0x00000102 (R192). -/
def execEncw10 (s : State) : Host.Outcome State Fault Refusal := s.complete (evalEncw .pdp10 s)

/-- `DECW.11`, word 0x00000004 (R197). -/
def execDecw11 (s : State) : Host.Outcome State Fault Refusal := s.complete (evalDecw .pdp11 s)

/-- `DECW.10`, word 0x00000104 (R197). -/
def execDecw10 (s : State) : Host.Outcome State Fault Refusal := s.complete (evalDecw .pdp10 s)

end Sys2Proof.Machine
end

