-- ==== Sys2Proof/Machine/Dispatch.lean ====
section
/-! DEFINITION. From a command to its meaning: the completion step of R236 for each defined command word. -/

namespace Sys2Proof.Machine

def exec (i : Instr) (s : State) : Host.Outcome State Fault Refusal :=
  match i with
  | .enc11 => Sys2Proof.Machine.execEnc11 s
  | .enc10 => Sys2Proof.Machine.execEnc10 s
  | .encw11 => Sys2Proof.Machine.execEncw11 s
  | .encw10 => Sys2Proof.Machine.execEncw10 s
  | .dec11 => Sys2Proof.Machine.execDec11 s
  | .dec10 => Sys2Proof.Machine.execDec10 s
  | .decw11 => Sys2Proof.Machine.execDecw11 s
  | .decw10 => Sys2Proof.Machine.execDecw10 s
  | .alpha11 => Sys2Proof.Machine.execAlpha11 s
  | .alpha10 => Sys2Proof.Machine.execAlpha10 s
  | .lookup11 => Sys2Proof.Machine.execLookup11 s
  | .lookup10 => Sys2Proof.Machine.execLookup10 s

end Sys2Proof.Machine
end

