-- ==== Sys2Proof/Machine/Step.lean ====
section
/-! DEFINITION. One step: the unit's completion step, one host action, or nothing (R22, R94). -/

namespace Sys2Proof.Machine

/-- The unit's completion step (R236): the command in `CUR_CMD`, or the error of an undefined word. -/
def unitStep (s : State) : Host.Outcome State Fault Refusal :=
  match decode s.curCmd with
  | .ok i => exec i s
  | .error _ => completeUndefined s

/-- One step of the machine. An ill-formed configuration is refused (R143; U11). -/
def step (s : State) : Host.Outcome State Fault Refusal :=
  if s.params.wf then
    match s.nextMove with
    | .unit => unitStep s
    | .host a rest => .next (s.hostTurn a rest)
    | .idle => .next s
  else .refused .parameters

/-- `s` with the command word `w` accepted and its delay over, so that the very next step is its
completion step: what a `CMD` write of `w` to an idle unit leaves (R235), with latency 0. The host's
actions stay, behind a pause, since a reset among them could otherwise come first (R260). -/
def State.withFetchWord (s : State) (nbits w : Nat) : State :=
  (s.accepted (tableWord nbits w) 0).withPending (.pause :: s.pending)

end Sys2Proof.Machine
end

