-- ==== Sys2Proof/Safety.lean ====
section
/-! DEFINITION. What the statements call a good state: the invariant of the machine. -/

namespace Sys2Proof.Machine

/-- The state a step answers with, if it answers with one. -/
def nextOf : Host.Outcome State Fault Refusal → Option State
  | .next t => some t
  | .fault _ => none
  | .refused _ => none

/-- `BUSY` and `DONE` are never both 1 (R38). -/
def State.flagsOk (s : State) : Prop := ¬(s.busy = true ∧ s.done = true)

/-- Until a command has completed, the result registers are 0 (R37, R38, R41 to R43, R235, R261). -/
def State.clearedOk (s : State) : Prop :=
  s.done = false → s.err = .none ∧ s.lenOut = 0#32 ∧ s.errChar = 0#32 ∧ s.errPos = 0#32

/-- The results of a completion with `ERR` = 0 (R41 to R43, R46): `LEN_OUT` entries of `OUT_BUF` hold a
value, and no error is recorded. -/
def State.successOk (s : State) : Prop :=
  s.lenOut.toNat ≤ s.params.outDepth ∧ s.errChar = 0#32 ∧ s.errPos = 0#32 ∧
    ∀ j, j < s.lenOut.toNat → (Buf.read s.outBuf j).isSome = true

/-- The results of a completion with an error (R41 to R43): `LEN_OUT` is 0; only `ILLEGAL_CHAR` records
a character and a position, from 1 to `IN_DEPTH`. -/
def State.errorOk (s : State) : Prop :=
  s.lenOut = 0#32 ∧
    (s.err = .illegalChar → 1 ≤ s.errPos.toNat ∧ s.errPos.toNat ≤ s.params.inDepth) ∧
    (s.err ≠ .illegalChar → s.errChar = 0#32 ∧ s.errPos = 0#32)

/-- The results of the command completed last, unless the host wrote its inputs while it ran (R266). -/
def State.resultsOk (s : State) : Prop :=
  s.done = true → s.inputsTouched = false →
    (s.err = .none → s.successOk) ∧ (s.err ≠ .none → s.errorOk)

/-- A running command completes within `LATENCY` host accesses (R15). -/
def State.delayOk (s : State) : Prop := s.busy = true → s.delay ≤ Config.latency

/-- The invariant: a well-formed unit, buffers in canonical form, and the rules above. -/
def State.Inv (s : State) : Prop :=
  s.params.wf = true ∧ s.memoryWf = true ∧ s.flagsOk ∧ s.clearedOk ∧ s.resultsOk ∧ s.delayOk

end Sys2Proof.Machine
end

