-- ==== Sys2Proof/Certificates/Slice0/Obligations.lean ====
section
/-! DEFINITION. The statements for the provers, and the words they are written in. -/

namespace Sys2Proof.Claims

open Sys2Proof.Machine

/-! ### Words about the codec -/

/-- The `IN_BUF` or `OUT_BUF` entry of the character with digit `g`. -/
def charEntry (p : Params) (d : Dialect) (g : Digit) : Word := (p.charOf d g).setWidth 32

/-- The entry is a character of the dialect's alphabet. -/
def legalChar (p : Params) (d : Dialect) (c : Word) : Prop := ∃ g : Digit, c = charEntry p d g

/-- R170's value of a word whose digits are the first `N` of the list, a missing digit being 0 (the
space): the sum of `d[k] · 40^(N−1−k)`, with the powers of 40 written out (40^5 = 102400000). -/
def wordValue (d : Dialect) (digits : List Digit) : Nat :=
  match d with
  | .pdp11 =>
    (digits.getD 0 0).val * 1600 + (digits.getD 1 0).val * 40 + (digits.getD 2 0).val
  | .pdp10 =>
    (digits.getD 0 0).val * 102400000 + (digits.getD 1 0).val * 2560000 +
      (digits.getD 2 0).val * 64000 + (digits.getD 3 0).val * 1600 + (digits.getD 4 0).val * 40 +
      (digits.getD 5 0).val

/-- R173's digit `k` of the low `W` bits of an entry: `(v div 40^(N−1−k)) mod 40`. -/
def entryDigit (d : Dialect) (entry : Word) (k : Nat) : Digit :=
  ⟨entry.toNat % 2 ^ d.width / 40 ^ (d.chars - 1 - k) % 40, Nat.mod_lt _ (by decide)⟩

/-! ### Words about a command -/

/-- `IN_BUF` holds the values of the list, from entry 0 on. -/
def holdsInputs (s : State) (vs : List Word) : Prop :=
  ∀ k, k < vs.length → Buf.read s.inBuf k = vs[k]?

/-- R232's condition: the operand count does not fit the command or the buffers. -/
def lengthMisfit (i : Instr) (s : State) : Prop :=
  match i.op with
  | .enc => s.params.inDepth < s.len ∨
      s.params.outDepth < (s.len + i.dialect.chars - 1) / i.dialect.chars
  | .encw => s.params.inDepth < s.len
  | .dec => s.params.inDepth < s.len ∨ s.params.outDepth < s.len * i.dialect.chars
  | .decw => s.len ≠ 1
  | .lookup => s.len ≠ 1
  | .alpha => False

/-- How many `IN_BUF` entries the command reads (R116; U5). -/
def readCount (i : Instr) (s : State) : Nat :=
  match i.op with
  | .enc => s.len
  | .encw => min (s.len) i.dialect.chars
  | .dec => s.len
  | .decw => 1
  | .lookup => 1
  | .alpha => 0

/-- How many `OUT_BUF` entries the command writes when it succeeds (R116). -/
def writeCount (i : Instr) (s : State) : Nat :=
  match i.op with
  | .enc => (s.len + i.dialect.chars - 1) / i.dialect.chars
  | .encw => 1
  | .dec => s.len * i.dialect.chars
  | .decw => i.dialect.chars
  | .lookup => 1
  | .alpha => 40

/-- Everything but the results and the two flags is as before. -/
def keepsRest (s t : State) : Prop :=
  t.params = s.params ∧ t.lenIn = s.lenIn ∧ t.inBuf = s.inBuf ∧ t.curCmd = s.curCmd ∧
    t.inputsTouched = s.inputsTouched ∧ t.delay = s.delay ∧ t.pending = s.pending ∧
    t.replies = s.replies

/-- The command succeeded with exactly these outputs (R236): entries at or above their count are as
before. -/
def succeedsWith (s t : State) (out : List Word) : Prop :=
  t.busy = false ∧ t.done = true ∧ t.err = .none ∧ t.errChar = 0#32 ∧ t.errPos = 0#32 ∧
    t.lenOut = BitVec.ofNat 32 out.length ∧
    (∀ j, j < out.length → Buf.read t.outBuf j = out[j]?) ∧
    (∀ j, out.length ≤ j → Buf.read t.outBuf j = Buf.read s.outBuf j) ∧ t.outDraw = s.outDraw ∧
    t.draws = s.draws

/-- Every `OUT_BUF` entry reads as a free value, one for each entry, drawn at count `k`. -/
def outBufFree (t : State) (k : Nat) : Prop :=
  ∀ j, t.readOutBuf j = (Config.freeOutEntry k j, t)

/-- The command failed with this record (R236): no output, `OUT_BUF` free, one draw used up for it. -/
def failsWith (s t : State) (code : ErrCode) (char pos : Word) : Prop :=
  t.busy = false ∧ t.done = true ∧ t.err = code ∧ t.errChar = char ∧ t.errPos = pos ∧
    t.lenOut = 0#32 ∧ outBufFree t s.draws ∧ t.draws = s.draws + 1

/-- The results are free values, `BUSY` and `DONE` are not (R266); the draws are used up. -/
def completesFree (s t : State) : Prop :=
  t.busy = false ∧ t.done = true ∧ t.err = ErrCode.ofBits (Config.freeErr s.draws) ∧
    t.lenOut = Config.freeWord s.draws ∧ t.errChar = Config.freeWord (s.draws + 1) ∧
    t.errPos = Config.freeWord (s.draws + 2) ∧ outBufFree t s.draws ∧ t.draws = s.draws + 3

/-! ### Words about a step -/

/-- It is the unit's turn: a command runs, and the host has nothing to do, or its next action is a
pause, or it is an access (no reset) and the delay is over. -/
def unitDue (s : State) : Prop :=
  s.params.wf = true ∧ s.busy = true ∧
    (s.pending = [] ∨
      ∃ a rest, s.pending = a :: rest ∧ (a = .pause ∨ a ≠ .reset ∧ s.delay = 0))

/-- It is the host's turn, its next action is `a`, and `rest` come after it. -/
def hostDoes (s : State) (a : HostAction) (rest : List HostAction) : Prop :=
  s.params.wf = true ∧ s.pending = a :: rest ∧
    ¬(s.busy = true ∧ (a = .pause ∨ a ≠ .reset ∧ s.delay = 0))

/-- Every field of the unit is as before, the mark of R266 apart. -/
def keepsRegisters (s t : State) : Prop :=
  t.params = s.params ∧ t.busy = s.busy ∧ t.done = s.done ∧ t.err = s.err ∧ t.lenIn = s.lenIn ∧
    t.lenOut = s.lenOut ∧ t.errChar = s.errChar ∧ t.errPos = s.errPos ∧ t.inBuf = s.inBuf ∧
    t.outBuf = s.outBuf ∧ t.curCmd = s.curCmd ∧ t.outDraw = s.outDraw

/-- Every field of the unit is as before. -/
def keepsUnit (s t : State) : Prop :=
  keepsRegisters s t ∧ t.inputsTouched = s.inputsTouched

/-- The host went on to `rest`, one access nearer to the completion of a running command. -/
def hostMovesOn (s t : State) (rest : List HostAction) : Prop :=
  t.pending = rest ∧ t.delay = s.delay - 1

/-- The step returns no value to the host and draws no free value. -/
def handsOutNothing (s t : State) : Prop := t.replies = s.replies ∧ t.draws = s.draws

/-- The step performs the host's next action without any effect on the unit. -/
def hasNoEffect (s : State) (rest : List HostAction) : Prop :=
  ∃ t, step s = .next t ∧ keepsUnit s t ∧ hostMovesOn s t rest ∧ handsOutNothing s t

/-- The step returns `v` to the host for its read at byte offset `off`, changes no field of the unit
and draws no free value. -/
def readGives (s : State) (rest : List HostAction) (off : Nat) (v : Word) : Prop :=
  ∃ t, step s = .next t ∧ t.replies = (off, v) :: s.replies ∧ keepsUnit s t ∧
    hostMovesOn s t rest ∧ t.draws = s.draws

/-- The step returns a freshly drawn free value to the host for its read at byte offset `off`, which is
used up by it, and changes no field of the unit. -/
def readGivesFree (s : State) (rest : List HostAction) (off : Nat) : Prop :=
  ∃ t, step s = .next t ∧ t.replies = (off, Config.freeWord s.draws) :: s.replies ∧
    keepsUnit s t ∧ hostMovesOn s t rest ∧ t.draws = s.draws + 1

/-- The host's next action is a read of byte offset `off`. -/
def hostReads (s : State) (rest : List HostAction) (off : Nat) : Prop :=
  ∃ addr : BusAddr, 4 * addr.toNat = off ∧ hostDoes s (.read addr) rest

/-- The host's next action is a write of `v` at byte offset `off`. -/
def hostWrites (s : State) (rest : List HostAction) (off : Nat) (v : Word) : Prop :=
  ∃ addr : BusAddr, 4 * addr.toNat = off ∧ hostDoes s (.write addr v) rest

/-- The number of an outcome code (R39). -/
def errNumber : ErrCode → Nat
  | .none => 0
  | .illegalChar => 1
  | .illegalCmd => 2
  | .length => 3

/-- R113's condition for a defined command word. -/
def definedWord (v : Word) : Prop :=
  v &&& 0xFFFFFEF0#32 = 0#32 ∧ 1 ≤ (v &&& 0xF#32).toNat ∧ (v &&& 0xF#32).toNat ≤ 6

/-- The offset names a location of R33's map. -/
def mappedOffset (p : Params) (off : Nat) : Prop :=
  off ≤ 0x1C ∨ (0x10000 ≤ off ∧ off < 0x10000 + 4 * p.inDepth) ∨
    (0x20000 ≤ off ∧ off < 0x20000 + 4 * p.outDepth)

/-- The offset names a read-only location (R87). -/
def readOnlyOffset (p : Params) (off : Nat) : Prop :=
  off = 0x04 ∨ off = 0x0C ∨ off = 0x10 ∨ off = 0x14 ∨ off = 0x18 ∨ off = 0x1C ∨
    (0x20000 ≤ off ∧ off < 0x20000 + 4 * p.outDepth)

end Sys2Proof.Claims

open Sys2Proof Sys2Proof.Machine Sys2Proof.Claims

/-! ### Encoding -/

/-- R113, R111: a few words written out from the pattern `00000000000000000000000D0000OOOO`. -/
def Obligations.SampleWordsDecode : Prop :=
  decode 0b00000000000000000000000000000001#32 = .ok .enc11 ∧
  decode 0b00000000000000000000000100000001#32 = .ok .enc10 ∧
  decode 0b00000000000000000000000100000010#32 = .ok .encw10 ∧
  decode 0b00000000000000000000000000000011#32 = .ok .dec11 ∧
  decode 0b00000000000000000000000100000100#32 = .ok .decw10 ∧
  decode 0b00000000000000000000000000000101#32 = .ok .alpha11 ∧
  decode 0b00000000000000000000000100000110#32 = .ok .lookup10 ∧
  decode 0b00000000000000000000000000000111#32 = .error (.reservedOp 7#4) ∧
  decode 0b00000000000000000000001000000001#32 = .error .reservedBits

/-- R113: "A command word `v` is defined if and only if `(v & 0xFFFFFEF0) = 0` and `v[3:0]` ∈ {0x1, …,
0x6}. Then the twelve defined command words are `v = (D << 8) | OP` for `D` ∈ {0, 1}": the decoder
takes the defined words and no other, and the one it takes for `i` is `(D << 8) | OP`. -/
def Obligations.DecoderTakesExactlyTheDefinedWords : Prop :=
  ∀ v : Word, ((∃ i, decode v = .ok i) ↔ definedWord v) ∧
    ∀ i, decode v = .ok i → v.toNat = i.dialect.code * 256 + i.op.code

/-- Decode and encode agree on every word: a word is the encoding of the command it decodes to, and the
encoding of a command decodes to it (R113). -/
def Obligations.DecodeAndEncodeAgree : Prop :=
  ∀ (v : Word) (i : Instr), decode v = .ok i ↔ encode i = v

/-! ### The step -/

/-- When it is the unit's turn and `CUR_CMD` decodes to `i`, the step is `exec i` and nothing else
(R236). Whose turn it is, is the model's schedule (log entry 2). -/
def Obligations.StepRunsTheDecodedCommand : Prop :=
  ∀ (s : State) (i : Instr), unitDue s → decode s.curCmd = .ok i → step s = exec i s

/-- The very next step after a command word was placed runs it (R235, R236). The placing is the model's
stand-in for an accepted `CMD` write (log entry 3). -/
def Obligations.PlacedCommandRunsNext : Prop :=
  ∀ (s : State) (i : Instr), s.params.wf = true →
    step (s.withFetchWord 32 (encode i).toNat) = exec i (s.withFetchWord 32 (encode i).toNat) ∧
    (s.withFetchWord 32 (encode i).toNat).lenIn = s.lenIn ∧
    (s.withFetchWord 32 (encode i).toNat).inBuf = s.inBuf

/-- R115: "An accepted command word with any bit of `RSV0` (bits 7:4) or `RSV1` (bits 31:9) set
completes with `ILLEGAL_CMD`, whatever its `OP`"; R231 with it: every word that is not defined
completes so, whatever `LEN_IN` and `IN_BUF` hold, with `ERR_CHAR` = 0 and `ERR_POS` = 0. -/
def Obligations.UndefinedWordCompletesIllegalCmd : Prop :=
  ∀ s : State, unitDue s → s.inputsTouched = false → ¬definedWord s.curCmd →
    ∃ t, step s = .next t ∧ failsWith s t .illegalCmd 0#32 0#32 ∧ keepsRest s t

/-- A unit with an ill-formed configuration is refused (R143, R13; U11). For the sizes of R13 this is the
model's choice (log entry 4). -/
def Obligations.IllFormedUnitIsRefused : Prop :=
  ∀ s : State, ¬(s.params.wf = true) → step s = .refused .parameters

/-- With the parameter `ENCW_OVERLONG` at its default, no step is refused (R193; U1). -/
def Obligations.DefaultUnitIsNeverRefused : Prop :=
  ∀ s : State, s.params.wf = true → s.params.overlong = .truncate → ∀ r, step s ≠ .refused r

/-- R244: every host access is allowed at all times and none raises an error: whenever it is not the
unit's turn, the step answers a next state. -/
def Obligations.HostAccessesNeverStop : Prop :=
  ∀ s : State, s.params.wf = true → ¬unitDue s → ∃ t, step s = .next t

/-- An idle unit whose host does nothing keeps every register (R246). -/
def Obligations.IdleUnitKeepsEverything : Prop :=
  ∀ s : State, s.params.wf = true → s.busy = false → s.pending = [] → step s = .next s

/-! ### The commands -/

/-- R213, R211, R170: `ENC` of a legal string completes with the words of its chunks, the last padded
with digit 0, for both dialects and every well-formed alphabet. -/
def Obligations.EncWritesTheWordsOfItsChunks : Prop :=
  ∀ (i : Instr) (s : State) (digits : List Digit), i.op = .enc → s.params.wf = true →
    s.inputsTouched = false → s.len = digits.length → ¬lengthMisfit i s →
    holdsInputs s (digits.map (charEntry s.params i.dialect)) →
    ∃ t, exec i s = .next t ∧ keepsRest s t ∧
      succeedsWith s t ((List.range ((digits.length + i.dialect.chars - 1) / i.dialect.chars)).map
        fun j => BitVec.ofNat 32 (wordValue i.dialect (digits.drop (j * i.dialect.chars))))

/-- R214: "`ENC` with `L` = 0 completes without error, with `LEN_OUT` = 0 and no entry written". -/
def Obligations.EncOfNothingWritesNothing : Prop :=
  ∀ (i : Instr) (s : State), i.op = .enc → s.inputsTouched = false → s.lenIn = 0#32 →
    ∃ t, exec i s = .next t ∧ keepsRest s t ∧ succeedsWith s t []

/-- R234: the illegal character reported by `ENC` is the one with the lowest position in the whole
input; the record is that entry and its 1-based position (R212, R230). -/
def Obligations.EncReportsTheFirstIllegalCharacter : Prop :=
  ∀ (i : Instr) (s : State) (cs : List Word) (k : Nat) (c : Word), i.op = .enc →
    s.params.wf = true → s.inputsTouched = false → s.len = cs.length → ¬lengthMisfit i s →
    holdsInputs s cs → cs[k]? = some c → ¬legalChar s.params i.dialect c →
    (∀ j e, j < k → cs[j]? = some e → legalChar s.params i.dialect e) →
    ∃ t, exec i s = .next t ∧ keepsRest s t ∧
      failsWith s t .illegalChar c (BitVec.ofNat 32 (k + 1))

/-- R192, R193, R170: `ENCW` of legal characters completes with the one word of the first `N`, missing
ones padded with digit 0. Nothing is asked of entries at or beyond `N`. -/
def Obligations.EncwWritesOneWord : Prop :=
  ∀ (i : Instr) (s : State) (digits : List Digit), i.op = .encw → s.params.wf = true →
    s.inputsTouched = false → ¬lengthMisfit i s →
    (s.len ≤ i.dialect.chars ∨ s.params.overlong = .truncate) →
    digits.length = min (s.len) i.dialect.chars →
    holdsInputs s (digits.map (charEntry s.params i.dialect)) →
    ∃ t, exec i s = .next t ∧ keepsRest s t ∧
      succeedsWith s t [BitVec.ofNat 32 (wordValue i.dialect digits)]

/-- R191, R192: `ENCW` reports the first illegal character among the first `min(L, N)`, with its local
position. -/
def Obligations.EncwReportsTheFirstIllegalCharacter : Prop :=
  ∀ (i : Instr) (s : State) (cs : List Word) (k : Nat) (c : Word), i.op = .encw →
    s.params.wf = true → s.inputsTouched = false → ¬lengthMisfit i s →
    (s.len ≤ i.dialect.chars ∨ s.params.overlong = .truncate) →
    cs.length = min (s.len) i.dialect.chars → holdsInputs s cs →
    cs[k]? = some c → ¬legalChar s.params i.dialect c →
    (∀ j e, j < k → cs[j]? = some e → legalChar s.params i.dialect e) →
    ∃ t, exec i s = .next t ∧ keepsRest s t ∧
      failsWith s t .illegalChar c (BitVec.ofNat 32 (k + 1))

/-- R193: "characters at positions `N + 1 .. L` are neither read nor checked": whatever a further
`IN_BUF` entry holds, `ENCW` completes alike. -/
def Obligations.EncwIgnoresEntriesBeyondN : Prop :=
  ∀ (i : Instr) (s : State) (k : Nat) (v : Word) (t : State), i.op = .encw → i.dialect.chars ≤ k →
    exec i s = .next t →
    exec i (s.withInBuf (Buf.write s.inBuf k v)) = .next (t.withInBuf (Buf.write s.inBuf k v))

/-- With `ENCW_OVERLONG` = `REFUSE`, `ENCW` of more than `N` characters is refused by name (U1, R193). -/
def Obligations.EncwOverlongIsRefusedWhereTheParameterSaysSo : Prop :=
  ∀ (i : Instr) (s : State), i.op = .encw → s.inputsTouched = false → ¬lengthMisfit i s →
    i.dialect.chars < s.len → s.params.overlong = .refuse →
    exec i s = .refused .encwOverlong

/-- R217, R216, R196, R173, R174, R195: `DEC` completes with the `N` characters of each word in order,
for every value of every entry. -/
def Obligations.DecWritesTheCharactersOfItsWords : Prop :=
  ∀ (i : Instr) (s : State) (vs : List Word), i.op = .dec → s.params.wf = true →
    s.inputsTouched = false → s.len = vs.length → ¬lengthMisfit i s → holdsInputs s vs →
    ∃ t, exec i s = .next t ∧ keepsRest s t ∧
      succeedsWith s t ((List.range (vs.length * i.dialect.chars)).map fun m =>
        charEntry s.params i.dialect
          (entryDigit i.dialect (vs.getD (m / i.dialect.chars) 0#32) (m % i.dialect.chars)))

/-- R218: "`DEC` with `L` = 0 completes without error, with `LEN_OUT` = 0". -/
def Obligations.DecOfNothingWritesNothing : Prop :=
  ∀ (i : Instr) (s : State), i.op = .dec → s.inputsTouched = false → s.lenIn = 0#32 →
    ∃ t, exec i s = .next t ∧ keepsRest s t ∧ succeedsWith s t []

/-- R197, R196, R173, R174, R195: `DECW` completes with the `N` characters of its word, for every value
of the entry. -/
def Obligations.DecwWritesTheCharactersOfItsWord : Prop :=
  ∀ (i : Instr) (s : State) (v : Word), i.op = .decw → s.params.wf = true →
    s.inputsTouched = false → s.len = 1 → Buf.read s.inBuf 0 = some v →
    ∃ t, exec i s = .next t ∧ keepsRest s t ∧
      succeedsWith s t ((List.range i.dialect.chars).map fun k =>
        charEntry s.params i.dialect (entryDigit i.dialect v k))

/-- R149: `ALPHA` completes with the 40 characters of the alphabet, whatever `LEN_IN` and `IN_BUF`
hold. -/
def Obligations.AlphaWritesTheAlphabet : Prop :=
  ∀ (i : Instr) (s : State), i.op = .alpha → s.inputsTouched = false →
    ∃ t, exec i s = .next t ∧ keepsRest s t ∧
      succeedsWith s t ((List.finRange 40).map (charEntry s.params i.dialect))

/-- R150, R147: `LOOKUP` of a character of the alphabet completes with its digit. -/
def Obligations.LookupWritesTheDigit : Prop :=
  ∀ (i : Instr) (s : State) (g : Digit), i.op = .lookup → s.params.wf = true →
    s.inputsTouched = false → s.len = 1 →
    Buf.read s.inBuf 0 = some (charEntry s.params i.dialect g) →
    ∃ t, exec i s = .next t ∧ keepsRest s t ∧ succeedsWith s t [BitVec.ofNat 32 g.val]

/-- R150, R147, R230: `LOOKUP` of any other 32-bit value records it with position 1. -/
def Obligations.LookupReportsAnIllegalCharacter : Prop :=
  ∀ (i : Instr) (s : State) (c : Word), i.op = .lookup → s.params.wf = true →
    s.inputsTouched = false → s.len = 1 → Buf.read s.inBuf 0 = some c →
    ¬legalChar s.params i.dialect c →
    ∃ t, exec i s = .next t ∧ keepsRest s t ∧ failsWith s t .illegalChar c 1#32

/-- R232: `LENGTH` "is raised when the operand count does not fit the command or the buffers", before
any entry is read (R233), and in no other case. -/
def Obligations.LengthIsRaisedExactlyOnMisfit : Prop :=
  ∀ (i : Instr) (s : State), s.params.wf = true → s.inputsTouched = false →
    (lengthMisfit i s →
      ∃ t, exec i s = .next t ∧ keepsRest s t ∧ failsWith s t .length 0#32 0#32) ∧
    (¬lengthMisfit i s → ∀ t, exec i s = .next t → t.err ≠ .length)

/-- R45, U5: a command that reads an `IN_BUF` entry never written since reset is a fault, which names
the first such entry. That the fault comes before an illegal character is the model's choice (log
entry 9). -/
def Obligations.UnwrittenInputIsAFault : Prop :=
  ∀ (i : Instr) (s : State) (j : Nat), s.params.wf = true → s.inputsTouched = false →
    ¬lengthMisfit i s →
    (i.op = .encw → s.len ≤ i.dialect.chars ∨ s.params.overlong = .truncate) →
    j < readCount i s → Buf.read s.inBuf j = none →
    (∀ k, k < j → (Buf.read s.inBuf k).isSome = true) →
    exec i s = .fault (.unwrittenInput j)

/-- The frame of all twelve commands (R236, R40, R45, R46): nothing but the results and the flags
changes; a success leaves every `OUT_BUF` entry at or above the output count of R116 as it was. -/
def Obligations.CommandFrame : Prop :=
  ∀ (i : Instr) (s t : State), exec i s = .next t →
    keepsRest s t ∧ t.busy = false ∧ t.done = true ∧
    (s.inputsTouched = false → t.err = .none →
      t.outDraw = s.outDraw ∧
        ∀ j, writeCount i s ≤ j → Buf.read t.outBuf j = Buf.read s.outBuf j)

/-! ### The codec's laws -/

/-- R145: "For each dialect and each digit `i` in 0..39, `INV_D[ALPHABET_D[i]] = SOME(i)`. Exactly 40
entries of `INV_D` are not `ABSENT`." -/
def Obligations.AlphabetBijection : Prop :=
  ∀ (p : Params) (d : Dialect), p.wf = true →
    (∀ g : Digit, (p.inverse d)[(p.charOf d g).toNat]? = some (some g)) ∧
    ((p.inverse d).filter Option.isSome).length = 40 ∧ (p.inverse d).length = 128

/-- R147, R148: a lookup gives the digit whose character it is; any other 32-bit value is an error
that carries the character and the position as given. -/
def Obligations.LookupFindsExactlyTheAlphabet : Prop :=
  ∀ (p : Params) (d : Dialect) (c : Word) (pos : Nat), p.wf = true →
    (∀ g : Digit, lookup p d c pos = .ok g ↔ c = charEntry p d g) ∧
    (¬legalChar p d c → lookup p d c pos = .error { char := c, pos := pos })

/-- R170, R171: `Pack` gives the positional value of its `N` digits, below `40^N`, and nothing is lost
in the word's `W` bits. -/
def Obligations.PackIsThePositionalValue : Prop :=
  ∀ (d : Dialect) (digits : List Digit), digits.length = d.chars →
    (pack d digits).toNat = wordValue d digits ∧ wordValue d digits < 40 ^ d.chars

/-- R175: "`Unpack(D, Pack(D, d)) = d` for every digit vector `d`. `Pack(D, Unpack(D, v)) = v mod 40^N`
for every `W`-bit `v`." -/
def Obligations.PackAndUnpackAreInverse : Prop :=
  ∀ d : Dialect,
    (∀ digits : List Digit, digits.length = d.chars → unpack d (pack d digits) = digits) ∧
    ∀ v : BitVec d.width, (pack d (unpack d v)).toNat = v.toNat % 40 ^ d.chars

/-- R174: a word of `40^N` or more decodes as its value modulo `40^N`: the overflow is discarded. -/
def Obligations.UnpackDiscardsTheOverflow : Prop :=
  ∀ (d : Dialect) (v : BitVec d.width),
    unpack d v = unpack d (BitVec.ofNat d.width (v.toNat % 40 ^ d.chars)) ∧
    (unpack d v).length = d.chars

/-- R194: "Padding makes no difference to the result." -/
def Obligations.PaddingMakesNoDifference : Prop :=
  ∀ (p : Params) (d : Dialect) (s : List Word), s.length < d.chars →
    encodeWord p d s = encodeWord p d (s ++ List.replicate (d.chars - s.length) 0x20#32)

/-- R198, R196: a decoded word is `N` characters of the alphabet. -/
def Obligations.DecodedCharactersAreOfTheAlphabet : Prop :=
  ∀ (p : Params) (d : Dialect) (v : BitVec d.width), p.wf = true →
    (decodeWord p d v).length = d.chars ∧
    ∀ c ∈ decodeWord p d v, c ∈ p.alphabet d ∧ 0x20 ≤ c.toNat ∧ c.toNat ≤ 0x7E

/-- R219: "Decoding the words of an encode yields the input followed by its pad spaces." -/
def Obligations.DecodeOfEncodeIsThePaddedText : Prop :=
  ∀ (p : Params) (d : Dialect) (digits : List Digit), p.wf = true →
    ∃ ws, encodeString p d (digits.map (charEntry p d)) = .ok ws ∧
      decodeString p d ws = digits.map (p.charOf d) ++
        List.replicate ((digits.length + d.chars - 1) / d.chars * d.chars - digits.length) 0x20#7

/-- R80: "When a word stream is serialized to bytes, each word is written most significant byte
first", 2 bytes of a PDP-11 word and 4 of a PDP-10 word. -/
def Obligations.SerialisationIsBigEndian : Prop :=
  ∀ (d : Dialect) (w : BitVec d.width) (ws : List (BitVec d.width)),
    (serializeWord d w).length = d.width / 8 ∧
    (serializeWord d w).foldl (fun a b => a * 256 + b.toNat) 0 = w.toNat ∧
    serialize d (w :: ws) = serializeWord d w ++ serialize d ws ∧ serialize d [] = []

/-! ### The host port -/

/-- R235, `AcceptCommand`: a `CMD` write is dropped while busy; otherwise it is latched, sets `BUSY`, and
clears `DONE`, `ERR`, `LEN_OUT`, `ERR_CHAR` and `ERR_POS`. Operands and buffers stay. -/
def Obligations.CommandWriteIsAcceptedOrDropped : Prop :=
  ∀ (s : State) (rest : List HostAction) (v : Word), hostWrites s rest 0x00000 v →
    (s.busy = true → hasNoEffect s rest) ∧
    (s.busy = false → ∃ t, step s = .next t ∧ t.curCmd = v ∧ t.busy = true ∧ t.done = false ∧
      t.err = .none ∧ t.lenOut = 0#32 ∧ t.errChar = 0#32 ∧ t.errPos = 0#32 ∧
      t.params = s.params ∧ t.lenIn = s.lenIn ∧ t.inBuf = s.inBuf ∧
      t.outBuf = s.outBuf ∧ t.outDraw = s.outDraw ∧ t.inputsTouched = false ∧ t.pending = rest ∧
      t.replies = s.replies)

/-- R40, R45, R85: a write to `LEN_IN` or to a mapped `IN_BUF` entry of an idle unit stores the value
and changes nothing else of the unit. -/
def Obligations.OperandWriteStoresTheValue : Prop :=
  ∀ (s : State) (rest : List HostAction) (v : Word), s.busy = false →
    (hostWrites s rest 0x00008 v → ∃ t, step s = .next t ∧
      keepsUnit (s.withLenIn v) t ∧ hostMovesOn s t rest ∧ handsOutNothing s t) ∧
    (∀ i, i < s.params.inDepth → hostWrites s rest (0x10000 + 4 * i) v → ∃ t, step s = .next t ∧
      keepsUnit (s.withInBuf t.inBuf) t ∧ hostMovesOn s t rest ∧ handsOutNothing s t ∧
      Buf.read t.inBuf i = some v ∧
      ∀ j, j ≠ i → Buf.read t.inBuf j = Buf.read s.inBuf j)

/-- R87: "A write to a read-only register (`STATUS`, `LEN_OUT`, `ERR_CHAR`, `ERR_POS`, `IN_DEPTH_REG`,
`OUT_DEPTH_REG`) or to an `OUT_BUF` entry has no effect." -/
def Obligations.ReadOnlyWriteHasNoEffect : Prop :=
  ∀ (s : State) (rest : List HostAction) (off : Nat) (v : Word), hostWrites s rest off v →
    readOnlyOffset s.params off → hasNoEffect s rest

/-- R86: "A read of an unmapped offset returns 0x00000000. A write to an unmapped offset has no
effect. Neither raises an error or changes `STATUS`." -/
def Obligations.UnmappedOffsetsReadZeroAndTakeNoWrite : Prop :=
  ∀ (s : State) (rest : List HostAction) (off : Nat), ¬mappedOffset s.params off →
    (hostReads s rest off → readGives s rest off 0#32) ∧
    ∀ v, hostWrites s rest off v → hasNoEffect s rest

/-- R35, R36, R40, R44, R45, R84: what the registers with exact values and the written entries of `IN_BUF`
read as, at all times, the unit idle or busy. -/
def Obligations.RegistersReadAsStored : Prop :=
  ∀ (s : State) (rest : List HostAction) (off : Nat), hostReads s rest off →
    (off = 0x00 → readGives s rest off 0#32) ∧
    (off = 0x04 → readGives s rest off
      (BitVec.ofNat 32 (s.busy.toNat + 2 * s.done.toNat + 16 * errNumber s.err))) ∧
    (off = 0x08 → readGives s rest off s.lenIn) ∧
    (off = 0x18 → readGives s rest off (BitVec.ofNat 32 s.params.inDepth)) ∧
    (off = 0x1C → readGives s rest off (BitVec.ofNat 32 s.params.outDepth)) ∧
    ∀ i v, i < s.params.inDepth → off = 0x10000 + 4 * i → Buf.read s.inBuf i = some v →
      readGives s rest off v

/-- R267: while `BUSY` = 1, `STATUS` reads exactly 1, `LEN_IN`, `IN_BUF` and the depth registers read
as stored, and a read of a result gives a free value; with `BUSY` = 0 the results read exactly. The
three premises are parts of the invariant that every step keeps. -/
def Obligations.ResultsReadFreeWhileBusyAndExactAfter : Prop :=
  ∀ (s : State) (rest : List HostAction) (off : Nat), s.memoryWf = true → s.flagsOk → s.clearedOk →
    hostReads s rest off →
    (s.busy = true →
      (off = 0x04 → readGives s rest off 1#32) ∧
      (off = 0x08 → readGives s rest off s.lenIn) ∧
      (∀ i v, off = 0x10000 + 4 * i → Buf.read s.inBuf i = some v → readGives s rest off v) ∧
      (off = 0x18 → readGives s rest off (BitVec.ofNat 32 s.params.inDepth)) ∧
      (off = 0x1C → readGives s rest off (BitVec.ofNat 32 s.params.outDepth)) ∧
      (off = 0x0C ∨ off = 0x10 ∨ off = 0x14 ∨
          (0x20000 ≤ off ∧ off < 0x20000 + 4 * s.params.outDepth) →
        readGivesFree s rest off)) ∧
    (s.busy = false →
      (off = 0x0C → readGives s rest off s.lenOut) ∧
      (off = 0x10 → readGives s rest off s.errChar) ∧
      (off = 0x14 → readGives s rest off s.errPos) ∧
      (∀ i v, off = 0x20000 + 4 * i → Buf.read s.outBuf i = some v → readGives s rest off v))

/-- R45, R46, R84: an `IN_BUF` entry that holds no value reads as a free value, and so does an
`OUT_BUF` entry that holds none; after an error, an `OUT_BUF` entry reads as the free value drawn
for it, the same at each read (the model's reading, log entry 8). -/
def Obligations.EntriesWithoutAValueReadFree : Prop :=
  ∀ (s : State) (rest : List HostAction) (i : Nat),
    (hostReads s rest (0x10000 + 4 * i) → i < s.params.inDepth → Buf.read s.inBuf i = none →
      readGivesFree s rest (0x10000 + 4 * i)) ∧
    (hostReads s rest (0x20000 + 4 * i) → i < s.params.outDepth → s.busy = false →
      Buf.read s.outBuf i = none → s.outDraw = none →
      readGivesFree s rest (0x20000 + 4 * i)) ∧
    ∀ k, hostReads s rest (0x20000 + 4 * i) → i < s.params.outDepth → s.busy = false →
      Buf.read s.outBuf i = none → s.outDraw = some k →
      readGives s rest (0x20000 + 4 * i) (Config.freeOutEntry k i)

/-- R90: "Reads have no side effect and are idempotent": no host read, at any offset and in any state,
changes a field of the unit; it returns a freshly drawn free value, or draws none. -/
def Obligations.ReadsHaveNoSideEffect : Prop :=
  ∀ (s : State) (rest : List HostAction) (off : Nat), hostReads s rest off →
    readGivesFree s rest off ∨ ∃ v, readGives s rest off v

/-- R119: `POLL` reads `STATUS`; it stays the host's next action while `BUSY` = 1 and ends at once when
`BUSY` = 0. `POLL` as one repeated action is the model's form (log entry 1). -/
def Obligations.PollWaitsForBusyToClear : Prop :=
  ∀ (s : State) (rest : List HostAction), hostDoes s .poll rest →
    ∃ t, step s = .next t ∧ keepsUnit s t ∧
      hostMovesOn s t (if s.busy then .poll :: rest else rest) ∧
      t.replies = (0x04, BitVec.ofNat 32
        (s.busy.toNat + 2 * s.done.toNat + 16 * errNumber s.err)) :: s.replies ∧
      t.draws = s.draws

/-- R266: a write to `LEN_IN` or `IN_BUF` while a command runs is performed, a later read returns the
written value, the rest of the unit is as before, and the command's results are then free values,
while `BUSY` clears and `DONE` sets as usual; the mark lasts until the command completes. That this
comes before the fault of an unwritten input, the refusal of an over-long `ENCW` and `ILLEGAL_CMD` is
the model's choice (log entry 10), as is `ERR` being free among its four codes only (log entry 11). -/
def Obligations.InputsWrittenWhileBusyMakeTheResultsFree : Prop :=
  (∀ (s : State) (rest : List HostAction) (v : Word), s.busy = true →
    (hostWrites s rest 0x00008 v →
      ∃ t, step s = .next t ∧ t.lenIn = v ∧ t.memRead 0x00008 = (v, t) ∧
        keepsRegisters (s.withLenIn v) t ∧ t.inputsTouched = true ∧ hostMovesOn s t rest ∧
        handsOutNothing s t) ∧
    ∀ i, i < s.params.inDepth → hostWrites s rest (0x10000 + 4 * i) v →
      ∃ t, step s = .next t ∧ Buf.read t.inBuf i = some v ∧
        (∀ j, j ≠ i → Buf.read t.inBuf j = Buf.read s.inBuf j) ∧
        t.memRead (0x10000 + 4 * i) = (v, t) ∧ keepsRegisters (s.withInBuf t.inBuf) t ∧
        t.inputsTouched = true ∧ hostMovesOn s t rest ∧ handsOutNothing s t) ∧
  (∀ s t : State, s.busy = true → s.inputsTouched = true → step s = .next t → t.busy = true →
    t.inputsTouched = true) ∧
  ∀ s : State, unitDue s → s.inputsTouched = true →
    ∃ t, step s = .next t ∧ completesFree s t ∧ keepsRest s t

/-- The same of each command's meaning: once its inputs were written while it ran, it completes, with
free results (R266), also where it would be a fault or a refusal (log entry 10). -/
def Obligations.TouchedCommandCompletesFree : Prop :=
  ∀ (i : Instr) (s : State), s.inputsTouched = true →
    ∃ t, exec i s = .next t ∧ completesFree s t ∧ keepsRest s t

/-- R261, `Reset()`: every register at its reset value, `CUR_CMD` a free value, every buffer entry
without a value; the constant tables and depths are not changed. -/
def Obligations.ResetClearsTheUnit : Prop :=
  ∀ (s : State) (rest : List HostAction), hostDoes s .reset rest →
    ∃ t, step s = .next t ∧ t.busy = false ∧ t.done = false ∧ t.err = .none ∧ t.lenIn = 0#32 ∧
      t.lenOut = 0#32 ∧ t.errChar = 0#32 ∧ t.errPos = 0#32 ∧
      t.curCmd = Config.freeWord s.draws ∧ t.params = s.params ∧ t.pending = rest ∧
      (∀ j, Buf.read t.inBuf j = none) ∧ (∀ j, Buf.read t.outBuf j = none) ∧ t.outDraw = none ∧
      t.draws = s.draws + 1 ∧ t.replies = s.replies

/-- R263: a reset while busy abandons the command: no completion step is due after it. -/
def Obligations.ResetAbandonsTheRunningCommand : Prop :=
  ∀ (s : State) (rest : List HostAction), s.busy = true → hostDoes s .reset rest →
    ∃ t, step s = .next t ∧ ¬unitDue t ∧ t.lenOut = 0#32 ∧ t.done = false ∧
      ∀ j, Buf.read t.outBuf j = none

/-! ### Rules of the whole machine -/

/-- R260: reset "may happen between any two other steps": after any step, whatever the unit was about to
do, a reset that comes next acts in the very next step, and no completion step comes before it. -/
def Obligations.ResetComesBetweenAnyTwoSteps : Prop :=
  ∀ (s t : State) (rest : List HostAction), step s = .next t →
    ¬unitDue (t.withPending (.reset :: rest)) ∧
    ∃ u, step (t.withPending (.reset :: rest)) = .next u ∧ u.busy = false ∧ u.done = false ∧
      u.err = .none ∧ u.lenIn = 0#32 ∧ u.lenOut = 0#32 ∧ u.errChar = 0#32 ∧ u.errPos = 0#32 ∧
      u.pending = rest ∧ (∀ j, Buf.read u.inBuf j = none) ∧ ∀ j, Buf.read u.outBuf j = none

/-- R94, R260: where the host pauses, a running command completes in the very next step, whatever its
delay, so that a reset behind the pause comes after it; with no command running, the pause ends and
nothing else changes. A pause is the model's form (log entry 1). -/
def Obligations.PauseLetsTheCommandComplete : Prop :=
  ∀ (s : State) (rest : List HostAction), s.params.wf = true → s.pending = .pause :: rest →
    (∀ i, s.busy = true → decode s.curCmd = .ok i → step s = exec i s) ∧
    (s.busy = false → step s = .next (s.withPending rest))

/-- R261, R33, R13: the state after reset of a unit built with the defaults holds the reset values the
spec gives. -/
def Obligations.ResetStateHoldsTheResetValues : Prop :=
  State.reset.busy = false ∧ State.reset.done = false ∧ State.reset.err = .none ∧
    State.reset.lenIn = 0#32 ∧ State.reset.lenOut = 0#32 ∧ State.reset.errChar = 0#32 ∧
    State.reset.errPos = 0#32 ∧ State.reset.params.inDepth = 1024 ∧
    State.reset.params.outDepth = 6144 ∧ (∀ j, Buf.read State.reset.inBuf j = none) ∧
    ∀ j, Buf.read State.reset.outBuf j = none

/-- The state after reset meets the invariant. -/
def Obligations.ResetMeetsTheInvariant : Prop := State.reset.Inv

/-- Every step from a state that meets the invariant gives one that meets it: a well-formed unit, both
buffers in canonical form and within their depths, `BUSY` and `DONE` never both 1 (R38), the
results 0 until a command completes (R235, R261), and the results of the last command as R41 to R43
say. -/
def Obligations.StepKeepsTheInvariant : Prop :=
  ∀ s t : State, s.Inv → step s = .next t → t.Inv

/-- No step takes back a draw: the free values of later draws are never those of earlier ones (`ANY` is
drawn freely each time, R17), and every acceptance uses up a draw for its latency (R15). The counter
is the model's form (log entries 2 and 8). -/
def Obligations.DrawsNeverGoBack : Prop :=
  ∀ s t : State, step s = .next t →
    s.draws ≤ t.draws ∧ (s.busy = false → t.busy = true → s.draws < t.draws)

/-- R49, R50, R44: no step changes the tables, the depths or the parameters. -/
def Obligations.TablesNeverChange : Prop :=
  ∀ s t : State, step s = .next t →
    t.params = s.params ∧ ∀ d, t.params.inverse d = s.params.inverse d

/-- R37: `BUSY` is set by an accepted `CMD` write, cleared by the completion step or by reset, and "No
other event changes it". -/
def Obligations.BusyChangesOnlyByItsThreeEvents : Prop :=
  ∀ s t : State, step s = .next t →
    (s.busy = false → t.busy = true →
      ∃ rest v, hostWrites s rest 0x00000 v) ∧
    (s.busy = true → t.busy = false → unitDue s ∨ ∃ rest, hostDoes s .reset rest) ∧
    (s.busy = false → (∃ rest v, hostWrites s rest 0x00000 v) → t.busy = true) ∧
    (unitDue s → t.busy = false) ∧
    ((∃ rest, hostDoes s .reset rest) → t.busy = false)

/-- R40, R45, R94: `LEN_IN` and `IN_BUF` change only by the host's own write to them or by reset; the
unit never writes them. -/
def Obligations.OnlyTheHostChangesTheInputs : Prop :=
  ∀ s t : State, step s = .next t →
    (t.lenIn ≠ s.lenIn →
      (∃ rest v, hostWrites s rest 0x00008 v ∧ t.lenIn = v) ∨ ∃ rest, hostDoes s .reset rest) ∧
    ∀ i, Buf.read t.inBuf i ≠ Buf.read s.inBuf i →
      (∃ rest v, hostWrites s rest (0x10000 + 4 * i) v ∧ Buf.read t.inBuf i = some v) ∨
        ∃ rest, hostDoes s .reset rest

/-- R238, R41, R46, R94: the results of a command stay until the next accepted command or reset: a step
of an idle unit that is neither keeps all of them. -/
def Obligations.ResultsStayUntilTheNextCommandOrReset : Prop :=
  ∀ s t : State, step s = .next t → s.busy = false → t.busy = false →
    (∀ rest, ¬hostDoes s .reset rest) →
    t.done = s.done ∧ t.err = s.err ∧ t.lenOut = s.lenOut ∧ t.errChar = s.errChar ∧
      t.errPos = s.errPos ∧ t.outBuf = s.outBuf ∧ t.outDraw = s.outDraw

/-- R94, R15, R270: an accepted command comes to its completion step after at most the host accesses its
delay counts, whatever the host does meanwhile but reset, and `CUR_CMD` is still its word then. The
bound by the delay is the model's schedule (log entry 2). -/
def Obligations.RunningCommandComesToItsCompletion : Prop :=
  ∀ s : State, s.params.wf = true → s.busy = true → HostAction.reset ∉ s.pending →
    ∃ n u, n ≤ s.delay ∧ Host.Core.run Sys2Proof.core n s = .next u ∧ unitDue u ∧
      u.curCmd = s.curCmd

/-- R97, R94, R235: a command written to an idle unit is run, within `LATENCY` host accesses after its
acceptance, on `LEN_IN` and `IN_BUF` as the host left them, when the host only reads and polls
meanwhile. The bound is the model's schedule (log entry 2). -/
def Obligations.WrittenCommandRunsOnItsOperands : Prop :=
  ∀ (s : State) (rest : List HostAction) (i : Instr), s.busy = false →
    hostWrites s rest 0x00000 (encode i) →
    (∀ a ∈ rest, a = .poll ∨ ∃ addr, a = .read addr) →
    ∃ n u, n ≤ Config.latency + 1 ∧ Host.Core.run Sys2Proof.core n s = .next u ∧
      step u = exec i u ∧ u.lenIn = s.lenIn ∧ u.inBuf = s.inBuf ∧ u.params = s.params ∧
      u.outBuf = s.outBuf ∧ u.inputsTouched = false
end

