-- ==== Sys2Proof/Laws/State.lean ====
section
/-! SUPPORT. What each named update of the state leaves in each field, one lemma a field, so that no proof
unfolds a record update. -/

namespace Sys2Proof.Machine

variable (s : State)

@[simp] theorem State.drawn_params : (s.drawn).params = s.params := rfl
@[simp] theorem State.drawn_busy : (s.drawn).busy = s.busy := rfl
@[simp] theorem State.drawn_done : (s.drawn).done = s.done := rfl
@[simp] theorem State.drawn_err : (s.drawn).err = s.err := rfl
@[simp] theorem State.drawn_lenIn : (s.drawn).lenIn = s.lenIn := rfl
@[simp] theorem State.drawn_lenOut : (s.drawn).lenOut = s.lenOut := rfl
@[simp] theorem State.drawn_errChar : (s.drawn).errChar = s.errChar := rfl
@[simp] theorem State.drawn_errPos : (s.drawn).errPos = s.errPos := rfl
@[simp] theorem State.drawn_inBuf : (s.drawn).inBuf = s.inBuf := rfl
@[simp] theorem State.drawn_outBuf : (s.drawn).outBuf = s.outBuf := rfl
@[simp] theorem State.drawn_curCmd : (s.drawn).curCmd = s.curCmd := rfl
@[simp] theorem State.drawn_outDraw : (s.drawn).outDraw = s.outDraw := rfl
@[simp] theorem State.drawn_inputsTouched : (s.drawn).inputsTouched = s.inputsTouched := rfl
@[simp] theorem State.drawn_delay : (s.drawn).delay = s.delay := rfl
@[simp] theorem State.drawn_draws : (s.drawn).draws = s.draws + 1 := rfl
@[simp] theorem State.drawn_pending : (s.drawn).pending = s.pending := rfl
@[simp] theorem State.drawn_replies : (s.drawn).replies = s.replies := rfl

@[simp] theorem State.accepted_params (v : Word) (n : Nat) : (s.accepted v n).params = s.params := rfl
@[simp] theorem State.accepted_busy (v : Word) (n : Nat) : (s.accepted v n).busy = true := rfl
@[simp] theorem State.accepted_done (v : Word) (n : Nat) : (s.accepted v n).done = false := rfl
@[simp] theorem State.accepted_err (v : Word) (n : Nat) : (s.accepted v n).err = .none := rfl
@[simp] theorem State.accepted_lenIn (v : Word) (n : Nat) : (s.accepted v n).lenIn = s.lenIn := rfl
@[simp] theorem State.accepted_lenOut (v : Word) (n : Nat) : (s.accepted v n).lenOut = 0#32 := rfl
@[simp] theorem State.accepted_errChar (v : Word) (n : Nat) : (s.accepted v n).errChar = 0#32 := rfl
@[simp] theorem State.accepted_errPos (v : Word) (n : Nat) : (s.accepted v n).errPos = 0#32 := rfl
@[simp] theorem State.accepted_inBuf (v : Word) (n : Nat) : (s.accepted v n).inBuf = s.inBuf := rfl
@[simp] theorem State.accepted_outBuf (v : Word) (n : Nat) : (s.accepted v n).outBuf = s.outBuf := rfl
@[simp] theorem State.accepted_curCmd (v : Word) (n : Nat) : (s.accepted v n).curCmd = v := rfl
@[simp] theorem State.accepted_outDraw (v : Word) (n : Nat) : (s.accepted v n).outDraw = s.outDraw := rfl
@[simp] theorem State.accepted_inputsTouched (v : Word) (n : Nat) :
    (s.accepted v n).inputsTouched = false := rfl
@[simp] theorem State.accepted_delay (v : Word) (n : Nat) : (s.accepted v n).delay = n := rfl
@[simp] theorem State.accepted_draws (v : Word) (n : Nat) : (s.accepted v n).draws = s.draws := rfl
@[simp] theorem State.accepted_pending (v : Word) (n : Nat) : (s.accepted v n).pending = s.pending := rfl
@[simp] theorem State.accepted_replies (v : Word) (n : Nat) : (s.accepted v n).replies = s.replies := rfl

@[simp] theorem State.finishOk_params (out : List Word) : (s.finishOk out).params = s.params := rfl
@[simp] theorem State.finishOk_busy (out : List Word) : (s.finishOk out).busy = false := rfl
@[simp] theorem State.finishOk_done (out : List Word) : (s.finishOk out).done = true := rfl
@[simp] theorem State.finishOk_err (out : List Word) : (s.finishOk out).err = .none := rfl
@[simp] theorem State.finishOk_lenIn (out : List Word) : (s.finishOk out).lenIn = s.lenIn := rfl
@[simp] theorem State.finishOk_lenOut (out : List Word) :
    (s.finishOk out).lenOut = BitVec.ofNat 32 out.length := rfl
@[simp] theorem State.finishOk_errChar (out : List Word) : (s.finishOk out).errChar = 0#32 := rfl
@[simp] theorem State.finishOk_errPos (out : List Word) : (s.finishOk out).errPos = 0#32 := rfl
@[simp] theorem State.finishOk_inBuf (out : List Word) : (s.finishOk out).inBuf = s.inBuf := rfl
@[simp] theorem State.finishOk_outBuf (out : List Word) :
    (s.finishOk out).outBuf = Buf.writeFrom s.outBuf 0 out := rfl
@[simp] theorem State.finishOk_curCmd (out : List Word) : (s.finishOk out).curCmd = s.curCmd := rfl
@[simp] theorem State.finishOk_outDraw (out : List Word) : (s.finishOk out).outDraw = s.outDraw := rfl
@[simp] theorem State.finishOk_inputsTouched (out : List Word) :
    (s.finishOk out).inputsTouched = s.inputsTouched := rfl
@[simp] theorem State.finishOk_delay (out : List Word) : (s.finishOk out).delay = s.delay := rfl
@[simp] theorem State.finishOk_draws (out : List Word) : (s.finishOk out).draws = s.draws := rfl
@[simp] theorem State.finishOk_pending (out : List Word) : (s.finishOk out).pending = s.pending := rfl
@[simp] theorem State.finishOk_replies (out : List Word) : (s.finishOk out).replies = s.replies := rfl

@[simp] theorem State.finishErr_params (e : CmdError) : (s.finishErr e).params = s.params := rfl
@[simp] theorem State.finishErr_busy (e : CmdError) : (s.finishErr e).busy = false := rfl
@[simp] theorem State.finishErr_done (e : CmdError) : (s.finishErr e).done = true := rfl
@[simp] theorem State.finishErr_err (e : CmdError) : (s.finishErr e).err = e.errCode := rfl
@[simp] theorem State.finishErr_lenIn (e : CmdError) : (s.finishErr e).lenIn = s.lenIn := rfl
@[simp] theorem State.finishErr_lenOut (e : CmdError) : (s.finishErr e).lenOut = 0#32 := rfl
@[simp] theorem State.finishErr_errChar (e : CmdError) : (s.finishErr e).errChar = e.errChar := rfl
@[simp] theorem State.finishErr_errPos (e : CmdError) : (s.finishErr e).errPos = e.errPos := rfl
@[simp] theorem State.finishErr_inBuf (e : CmdError) : (s.finishErr e).inBuf = s.inBuf := rfl
@[simp] theorem State.finishErr_outBuf (e : CmdError) : (s.finishErr e).outBuf = [] := rfl
@[simp] theorem State.finishErr_curCmd (e : CmdError) : (s.finishErr e).curCmd = s.curCmd := rfl
@[simp] theorem State.finishErr_outDraw (e : CmdError) : (s.finishErr e).outDraw = some s.draws := rfl
@[simp] theorem State.finishErr_inputsTouched (e : CmdError) :
    (s.finishErr e).inputsTouched = s.inputsTouched := rfl
@[simp] theorem State.finishErr_delay (e : CmdError) : (s.finishErr e).delay = s.delay := rfl
@[simp] theorem State.finishErr_draws (e : CmdError) : (s.finishErr e).draws = s.draws + 1 := rfl
@[simp] theorem State.finishErr_pending (e : CmdError) : (s.finishErr e).pending = s.pending := rfl
@[simp] theorem State.finishErr_replies (e : CmdError) : (s.finishErr e).replies = s.replies := rfl

@[simp] theorem State.finishAny_params : (s.finishAny).params = s.params := rfl
@[simp] theorem State.finishAny_busy : (s.finishAny).busy = false := rfl
@[simp] theorem State.finishAny_done : (s.finishAny).done = true := rfl
@[simp] theorem State.finishAny_err : (s.finishAny).err = ErrCode.ofBits (Config.freeErr s.draws) := rfl
@[simp] theorem State.finishAny_lenIn : (s.finishAny).lenIn = s.lenIn := rfl
@[simp] theorem State.finishAny_lenOut : (s.finishAny).lenOut = Config.freeWord s.draws := rfl
@[simp] theorem State.finishAny_errChar : (s.finishAny).errChar = Config.freeWord (s.draws + 1) := rfl
@[simp] theorem State.finishAny_errPos : (s.finishAny).errPos = Config.freeWord (s.draws + 2) := rfl
@[simp] theorem State.finishAny_inBuf : (s.finishAny).inBuf = s.inBuf := rfl
@[simp] theorem State.finishAny_outBuf : (s.finishAny).outBuf = [] := rfl
@[simp] theorem State.finishAny_curCmd : (s.finishAny).curCmd = s.curCmd := rfl
@[simp] theorem State.finishAny_outDraw : (s.finishAny).outDraw = some s.draws := rfl
@[simp] theorem State.finishAny_inputsTouched : (s.finishAny).inputsTouched = s.inputsTouched := rfl
@[simp] theorem State.finishAny_delay : (s.finishAny).delay = s.delay := rfl
@[simp] theorem State.finishAny_draws : (s.finishAny).draws = s.draws + 3 := rfl
@[simp] theorem State.finishAny_pending : (s.finishAny).pending = s.pending := rfl
@[simp] theorem State.finishAny_replies : (s.finishAny).replies = s.replies := rfl

@[simp] theorem State.resetUnit_params : (s.resetUnit).params = s.params := rfl
@[simp] theorem State.resetUnit_busy : (s.resetUnit).busy = false := rfl
@[simp] theorem State.resetUnit_done : (s.resetUnit).done = false := rfl
@[simp] theorem State.resetUnit_err : (s.resetUnit).err = .none := rfl
@[simp] theorem State.resetUnit_lenIn : (s.resetUnit).lenIn = 0#32 := rfl
@[simp] theorem State.resetUnit_lenOut : (s.resetUnit).lenOut = 0#32 := rfl
@[simp] theorem State.resetUnit_errChar : (s.resetUnit).errChar = 0#32 := rfl
@[simp] theorem State.resetUnit_errPos : (s.resetUnit).errPos = 0#32 := rfl
@[simp] theorem State.resetUnit_inBuf : (s.resetUnit).inBuf = [] := rfl
@[simp] theorem State.resetUnit_outBuf : (s.resetUnit).outBuf = [] := rfl
@[simp] theorem State.resetUnit_curCmd : (s.resetUnit).curCmd = Config.freeWord s.draws := rfl
@[simp] theorem State.resetUnit_outDraw : (s.resetUnit).outDraw = none := rfl
@[simp] theorem State.resetUnit_inputsTouched : (s.resetUnit).inputsTouched = false := rfl
@[simp] theorem State.resetUnit_delay : (s.resetUnit).delay = 0 := rfl
@[simp] theorem State.resetUnit_draws : (s.resetUnit).draws = s.draws + 1 := rfl
@[simp] theorem State.resetUnit_pending : (s.resetUnit).pending = s.pending := rfl
@[simp] theorem State.resetUnit_replies : (s.resetUnit).replies = s.replies := rfl

@[simp] theorem State.writeLenIn_params (v : Word) : (s.writeLenIn v).params = s.params := rfl
@[simp] theorem State.writeLenIn_busy (v : Word) : (s.writeLenIn v).busy = s.busy := rfl
@[simp] theorem State.writeLenIn_done (v : Word) : (s.writeLenIn v).done = s.done := rfl
@[simp] theorem State.writeLenIn_err (v : Word) : (s.writeLenIn v).err = s.err := rfl
@[simp] theorem State.writeLenIn_lenIn (v : Word) : (s.writeLenIn v).lenIn = v := rfl
@[simp] theorem State.writeLenIn_lenOut (v : Word) : (s.writeLenIn v).lenOut = s.lenOut := rfl
@[simp] theorem State.writeLenIn_errChar (v : Word) : (s.writeLenIn v).errChar = s.errChar := rfl
@[simp] theorem State.writeLenIn_errPos (v : Word) : (s.writeLenIn v).errPos = s.errPos := rfl
@[simp] theorem State.writeLenIn_inBuf (v : Word) : (s.writeLenIn v).inBuf = s.inBuf := rfl
@[simp] theorem State.writeLenIn_outBuf (v : Word) : (s.writeLenIn v).outBuf = s.outBuf := rfl
@[simp] theorem State.writeLenIn_curCmd (v : Word) : (s.writeLenIn v).curCmd = s.curCmd := rfl
@[simp] theorem State.writeLenIn_outDraw (v : Word) : (s.writeLenIn v).outDraw = s.outDraw := rfl
@[simp] theorem State.writeLenIn_inputsTouched (v : Word) :
    (s.writeLenIn v).inputsTouched = (s.inputsTouched || s.busy) := rfl
@[simp] theorem State.writeLenIn_delay (v : Word) : (s.writeLenIn v).delay = s.delay := rfl
@[simp] theorem State.writeLenIn_draws (v : Word) : (s.writeLenIn v).draws = s.draws := rfl
@[simp] theorem State.writeLenIn_pending (v : Word) : (s.writeLenIn v).pending = s.pending := rfl
@[simp] theorem State.writeLenIn_replies (v : Word) : (s.writeLenIn v).replies = s.replies := rfl

@[simp] theorem State.writeInBuf_params (i : Nat) (v : Word) : (s.writeInBuf i v).params = s.params := rfl
@[simp] theorem State.writeInBuf_busy (i : Nat) (v : Word) : (s.writeInBuf i v).busy = s.busy := rfl
@[simp] theorem State.writeInBuf_done (i : Nat) (v : Word) : (s.writeInBuf i v).done = s.done := rfl
@[simp] theorem State.writeInBuf_err (i : Nat) (v : Word) : (s.writeInBuf i v).err = s.err := rfl
@[simp] theorem State.writeInBuf_lenIn (i : Nat) (v : Word) : (s.writeInBuf i v).lenIn = s.lenIn := rfl
@[simp] theorem State.writeInBuf_lenOut (i : Nat) (v : Word) : (s.writeInBuf i v).lenOut = s.lenOut := rfl
@[simp] theorem State.writeInBuf_errChar (i : Nat) (v : Word) : (s.writeInBuf i v).errChar = s.errChar := rfl
@[simp] theorem State.writeInBuf_errPos (i : Nat) (v : Word) : (s.writeInBuf i v).errPos = s.errPos := rfl
@[simp] theorem State.writeInBuf_inBuf (i : Nat) (v : Word) :
    (s.writeInBuf i v).inBuf = Buf.write s.inBuf i v := rfl
@[simp] theorem State.writeInBuf_outBuf (i : Nat) (v : Word) : (s.writeInBuf i v).outBuf = s.outBuf := rfl
@[simp] theorem State.writeInBuf_curCmd (i : Nat) (v : Word) : (s.writeInBuf i v).curCmd = s.curCmd := rfl
@[simp] theorem State.writeInBuf_outDraw (i : Nat) (v : Word) : (s.writeInBuf i v).outDraw = s.outDraw := rfl
@[simp] theorem State.writeInBuf_inputsTouched (i : Nat) (v : Word) :
    (s.writeInBuf i v).inputsTouched = (s.inputsTouched || s.busy) := rfl
@[simp] theorem State.writeInBuf_delay (i : Nat) (v : Word) : (s.writeInBuf i v).delay = s.delay := rfl
@[simp] theorem State.writeInBuf_draws (i : Nat) (v : Word) : (s.writeInBuf i v).draws = s.draws := rfl
@[simp] theorem State.writeInBuf_pending (i : Nat) (v : Word) : (s.writeInBuf i v).pending = s.pending := rfl
@[simp] theorem State.writeInBuf_replies (i : Nat) (v : Word) : (s.writeInBuf i v).replies = s.replies := rfl

@[simp] theorem State.reply_params (off : Nat) (v : Word) : (s.reply off v).params = s.params := rfl
@[simp] theorem State.reply_busy (off : Nat) (v : Word) : (s.reply off v).busy = s.busy := rfl
@[simp] theorem State.reply_done (off : Nat) (v : Word) : (s.reply off v).done = s.done := rfl
@[simp] theorem State.reply_err (off : Nat) (v : Word) : (s.reply off v).err = s.err := rfl
@[simp] theorem State.reply_lenIn (off : Nat) (v : Word) : (s.reply off v).lenIn = s.lenIn := rfl
@[simp] theorem State.reply_lenOut (off : Nat) (v : Word) : (s.reply off v).lenOut = s.lenOut := rfl
@[simp] theorem State.reply_errChar (off : Nat) (v : Word) : (s.reply off v).errChar = s.errChar := rfl
@[simp] theorem State.reply_errPos (off : Nat) (v : Word) : (s.reply off v).errPos = s.errPos := rfl
@[simp] theorem State.reply_inBuf (off : Nat) (v : Word) : (s.reply off v).inBuf = s.inBuf := rfl
@[simp] theorem State.reply_outBuf (off : Nat) (v : Word) : (s.reply off v).outBuf = s.outBuf := rfl
@[simp] theorem State.reply_curCmd (off : Nat) (v : Word) : (s.reply off v).curCmd = s.curCmd := rfl
@[simp] theorem State.reply_outDraw (off : Nat) (v : Word) : (s.reply off v).outDraw = s.outDraw := rfl
@[simp] theorem State.reply_inputsTouched (off : Nat) (v : Word) :
    (s.reply off v).inputsTouched = s.inputsTouched := rfl
@[simp] theorem State.reply_delay (off : Nat) (v : Word) : (s.reply off v).delay = s.delay := rfl
@[simp] theorem State.reply_draws (off : Nat) (v : Word) : (s.reply off v).draws = s.draws := rfl
@[simp] theorem State.reply_pending (off : Nat) (v : Word) : (s.reply off v).pending = s.pending := rfl
@[simp] theorem State.reply_replies (off : Nat) (v : Word) :
    (s.reply off v).replies = (off, v) :: s.replies := rfl

@[simp] theorem State.hostTakes_params (rest : List HostAction) : (s.hostTakes rest).params = s.params := rfl
@[simp] theorem State.hostTakes_busy (rest : List HostAction) : (s.hostTakes rest).busy = s.busy := rfl
@[simp] theorem State.hostTakes_done (rest : List HostAction) : (s.hostTakes rest).done = s.done := rfl
@[simp] theorem State.hostTakes_err (rest : List HostAction) : (s.hostTakes rest).err = s.err := rfl
@[simp] theorem State.hostTakes_lenIn (rest : List HostAction) : (s.hostTakes rest).lenIn = s.lenIn := rfl
@[simp] theorem State.hostTakes_lenOut (rest : List HostAction) : (s.hostTakes rest).lenOut = s.lenOut := rfl
@[simp] theorem State.hostTakes_errChar (rest : List HostAction) :
    (s.hostTakes rest).errChar = s.errChar := rfl
@[simp] theorem State.hostTakes_errPos (rest : List HostAction) : (s.hostTakes rest).errPos = s.errPos := rfl
@[simp] theorem State.hostTakes_inBuf (rest : List HostAction) : (s.hostTakes rest).inBuf = s.inBuf := rfl
@[simp] theorem State.hostTakes_outBuf (rest : List HostAction) : (s.hostTakes rest).outBuf = s.outBuf := rfl
@[simp] theorem State.hostTakes_curCmd (rest : List HostAction) : (s.hostTakes rest).curCmd = s.curCmd := rfl
@[simp] theorem State.hostTakes_outDraw (rest : List HostAction) :
    (s.hostTakes rest).outDraw = s.outDraw := rfl
@[simp] theorem State.hostTakes_inputsTouched (rest : List HostAction) :
    (s.hostTakes rest).inputsTouched = s.inputsTouched := rfl
@[simp] theorem State.hostTakes_delay (rest : List HostAction) : (s.hostTakes rest).delay = s.delay - 1 := rfl
@[simp] theorem State.hostTakes_draws (rest : List HostAction) : (s.hostTakes rest).draws = s.draws := rfl
@[simp] theorem State.hostTakes_pending (rest : List HostAction) : (s.hostTakes rest).pending = rest := rfl
@[simp] theorem State.hostTakes_replies (rest : List HostAction) :
    (s.hostTakes rest).replies = s.replies := rfl

@[simp] theorem State.withLenIn_params (v : Word) : (s.withLenIn v).params = s.params := rfl
@[simp] theorem State.withLenIn_busy (v : Word) : (s.withLenIn v).busy = s.busy := rfl
@[simp] theorem State.withLenIn_done (v : Word) : (s.withLenIn v).done = s.done := rfl
@[simp] theorem State.withLenIn_err (v : Word) : (s.withLenIn v).err = s.err := rfl
@[simp] theorem State.withLenIn_lenIn (v : Word) : (s.withLenIn v).lenIn = v := rfl
@[simp] theorem State.withLenIn_lenOut (v : Word) : (s.withLenIn v).lenOut = s.lenOut := rfl
@[simp] theorem State.withLenIn_errChar (v : Word) : (s.withLenIn v).errChar = s.errChar := rfl
@[simp] theorem State.withLenIn_errPos (v : Word) : (s.withLenIn v).errPos = s.errPos := rfl
@[simp] theorem State.withLenIn_inBuf (v : Word) : (s.withLenIn v).inBuf = s.inBuf := rfl
@[simp] theorem State.withLenIn_outBuf (v : Word) : (s.withLenIn v).outBuf = s.outBuf := rfl
@[simp] theorem State.withLenIn_curCmd (v : Word) : (s.withLenIn v).curCmd = s.curCmd := rfl
@[simp] theorem State.withLenIn_outDraw (v : Word) : (s.withLenIn v).outDraw = s.outDraw := rfl
@[simp] theorem State.withLenIn_inputsTouched (v : Word) :
    (s.withLenIn v).inputsTouched = s.inputsTouched := rfl
@[simp] theorem State.withLenIn_delay (v : Word) : (s.withLenIn v).delay = s.delay := rfl
@[simp] theorem State.withLenIn_draws (v : Word) : (s.withLenIn v).draws = s.draws := rfl
@[simp] theorem State.withLenIn_pending (v : Word) : (s.withLenIn v).pending = s.pending := rfl
@[simp] theorem State.withLenIn_replies (v : Word) : (s.withLenIn v).replies = s.replies := rfl

@[simp] theorem State.withInBuf_params (b : Buf) : (s.withInBuf b).params = s.params := rfl
@[simp] theorem State.withInBuf_busy (b : Buf) : (s.withInBuf b).busy = s.busy := rfl
@[simp] theorem State.withInBuf_done (b : Buf) : (s.withInBuf b).done = s.done := rfl
@[simp] theorem State.withInBuf_err (b : Buf) : (s.withInBuf b).err = s.err := rfl
@[simp] theorem State.withInBuf_lenIn (b : Buf) : (s.withInBuf b).lenIn = s.lenIn := rfl
@[simp] theorem State.withInBuf_lenOut (b : Buf) : (s.withInBuf b).lenOut = s.lenOut := rfl
@[simp] theorem State.withInBuf_errChar (b : Buf) : (s.withInBuf b).errChar = s.errChar := rfl
@[simp] theorem State.withInBuf_errPos (b : Buf) : (s.withInBuf b).errPos = s.errPos := rfl
@[simp] theorem State.withInBuf_inBuf (b : Buf) : (s.withInBuf b).inBuf = b := rfl
@[simp] theorem State.withInBuf_outBuf (b : Buf) : (s.withInBuf b).outBuf = s.outBuf := rfl
@[simp] theorem State.withInBuf_curCmd (b : Buf) : (s.withInBuf b).curCmd = s.curCmd := rfl
@[simp] theorem State.withInBuf_outDraw (b : Buf) : (s.withInBuf b).outDraw = s.outDraw := rfl
@[simp] theorem State.withInBuf_inputsTouched (b : Buf) :
    (s.withInBuf b).inputsTouched = s.inputsTouched := rfl
@[simp] theorem State.withInBuf_delay (b : Buf) : (s.withInBuf b).delay = s.delay := rfl
@[simp] theorem State.withInBuf_draws (b : Buf) : (s.withInBuf b).draws = s.draws := rfl
@[simp] theorem State.withInBuf_pending (b : Buf) : (s.withInBuf b).pending = s.pending := rfl
@[simp] theorem State.withInBuf_replies (b : Buf) : (s.withInBuf b).replies = s.replies := rfl

@[simp] theorem State.withPending_params (todo : List HostAction) :
    (s.withPending todo).params = s.params := rfl
@[simp] theorem State.withPending_busy (todo : List HostAction) : (s.withPending todo).busy = s.busy := rfl
@[simp] theorem State.withPending_done (todo : List HostAction) : (s.withPending todo).done = s.done := rfl
@[simp] theorem State.withPending_err (todo : List HostAction) : (s.withPending todo).err = s.err := rfl
@[simp] theorem State.withPending_lenIn (todo : List HostAction) : (s.withPending todo).lenIn = s.lenIn := rfl
@[simp] theorem State.withPending_lenOut (todo : List HostAction) :
    (s.withPending todo).lenOut = s.lenOut := rfl
@[simp] theorem State.withPending_errChar (todo : List HostAction) :
    (s.withPending todo).errChar = s.errChar := rfl
@[simp] theorem State.withPending_errPos (todo : List HostAction) :
    (s.withPending todo).errPos = s.errPos := rfl
@[simp] theorem State.withPending_inBuf (todo : List HostAction) : (s.withPending todo).inBuf = s.inBuf := rfl
@[simp] theorem State.withPending_outBuf (todo : List HostAction) :
    (s.withPending todo).outBuf = s.outBuf := rfl
@[simp] theorem State.withPending_curCmd (todo : List HostAction) :
    (s.withPending todo).curCmd = s.curCmd := rfl
@[simp] theorem State.withPending_outDraw (todo : List HostAction) :
    (s.withPending todo).outDraw = s.outDraw := rfl
@[simp] theorem State.withPending_inputsTouched (todo : List HostAction) :
    (s.withPending todo).inputsTouched = s.inputsTouched := rfl
@[simp] theorem State.withPending_delay (todo : List HostAction) : (s.withPending todo).delay = s.delay := rfl
@[simp] theorem State.withPending_draws (todo : List HostAction) : (s.withPending todo).draws = s.draws := rfl
@[simp] theorem State.withPending_pending (todo : List HostAction) :
    (s.withPending todo).pending = todo := rfl
@[simp] theorem State.withPending_replies (todo : List HostAction) :
    (s.withPending todo).replies = s.replies := rfl

end Sys2Proof.Machine
end

