-- ==== Sys2Proof/Laws/Buffers.lean ====
section
/-! SUPPORT. What the buffer operations do: a read after a write, and the canonical form they keep. -/

namespace Sys2Proof.Machine

@[simp] theorem Buf.read_nil (i : Nat) : Buf.read [] i = none := rfl

@[simp] theorem Buf.read_write_same (b : Buf) (i : Nat) (v : Word) :
    Buf.read (Buf.write b i v) i = some v := by
  induction b with
  | nil => simp [Buf.write, Buf.read]
  | cons e b ih =>
    obtain ⟨j, w⟩ := e
    simp only [Buf.write]
    split
    · simp [Buf.read]
    · split
      · simp [Buf.read]
      · simp [Buf.read, *]

theorem Buf.read_write_other (b : Buf) {i k : Nat} (v : Word) (h : k ≠ i) :
    Buf.read (Buf.write b i v) k = Buf.read b k := by
  induction b with
  | nil => simp [Buf.write, Buf.read, h]
  | cons e b ih =>
    obtain ⟨j, w⟩ := e
    simp only [Buf.write]
    split
    · simp [Buf.read, h]
    · split
      · next hij => subst hij; simp [Buf.read, h]
      · simp [Buf.read, ih]

theorem Buf.read_writeFrom_below (b : Buf) (vs : List Word) {i k : Nat} (h : k < i) :
    Buf.read (Buf.writeFrom b i vs) k = Buf.read b k := by
  induction vs generalizing b i with
  | nil => rfl
  | cons v vs ih =>
    rw [Buf.writeFrom, ih _ (by omega), Buf.read_write_other _ _ (by omega)]

theorem Buf.read_writeFrom_above (b : Buf) (vs : List Word) {i k : Nat} (h : i + vs.length ≤ k) :
    Buf.read (Buf.writeFrom b i vs) k = Buf.read b k := by
  induction vs generalizing b i with
  | nil => rfl
  | cons v vs ih =>
    simp only [List.length_cons] at h
    rw [Buf.writeFrom, ih _ (by omega), Buf.read_write_other _ _ (by omega)]

theorem Buf.read_writeFrom_inside (b : Buf) (vs : List Word) (i k : Nat) (h : k < vs.length) :
    Buf.read (Buf.writeFrom b i vs) (i + k) = some vs[k] := by
  induction vs generalizing b i k with
  | nil => simp at h
  | cons v vs ih =>
    rw [Buf.writeFrom]
    cases k with
    | zero => rw [Nat.add_zero, Buf.read_writeFrom_below _ _ (by omega)]; simp
    | succ k =>
      have := ih (Buf.write b i v) (i + 1) k (by simpa using h)
      rw [show i + 1 + k = i + (k + 1) by omega] at this
      simpa using this

theorem Buf.wfFrom_mono {depth low low' : Nat} {b : Buf} (h : Buf.wfFrom depth low b = true)
    (hl : low' ≤ low) : Buf.wfFrom depth low' b = true := by
  cases b with
  | nil => rfl
  | cons e b =>
    simp only [Buf.wfFrom, Bool.and_eq_true, decide_eq_true_eq] at h ⊢
    exact ⟨⟨by omega, h.1.2⟩, h.2⟩

theorem Buf.wfFrom_write {depth low i : Nat} {b : Buf} (v : Word) (h : Buf.wfFrom depth low b = true)
    (hlow : low ≤ i) (hi : i < depth) : Buf.wfFrom depth low (Buf.write b i v) = true := by
  induction b generalizing low with
  | nil => simp [Buf.write, Buf.wfFrom, hlow, hi]
  | cons e b ih =>
    obtain ⟨j, w⟩ := e
    simp only [Buf.wfFrom, Bool.and_eq_true, decide_eq_true_eq] at h
    obtain ⟨⟨hlj, hj⟩, hb⟩ := h
    simp only [Buf.write]
    split
    · simp only [Buf.wfFrom, Bool.and_eq_true, decide_eq_true_eq]
      exact ⟨⟨hlow, hi⟩, ⟨⟨by omega, hj⟩, hb⟩⟩
    · split
      · next hij => subst hij; simp [Buf.wfFrom, hlow, hi, hb]
      · simp only [Buf.wfFrom, Bool.and_eq_true, decide_eq_true_eq]
        exact ⟨⟨hlj, hj⟩, ih hb (by omega)⟩

/-- A write to an entry of the buffer keeps the canonical form. -/
theorem Buf.wf_write {depth i : Nat} {b : Buf} (v : Word) (h : Buf.wf depth b = true) (hi : i < depth) :
    Buf.wf depth (Buf.write b i v) = true :=
  Buf.wfFrom_write v h (Nat.zero_le i) hi

/-- Writing a list of entries within the buffer keeps the canonical form. -/
theorem Buf.wf_writeFrom {depth i : Nat} {b : Buf} (vs : List Word) (h : Buf.wf depth b = true)
    (hi : i + vs.length ≤ depth) : Buf.wf depth (Buf.writeFrom b i vs) = true := by
  induction vs generalizing b i with
  | nil => exact h
  | cons v vs ih =>
    simp only [List.length_cons] at hi
    exact ih (Buf.wf_write v h (by omega)) (by omega)

@[simp] theorem Buf.wf_nil (depth : Nat) : Buf.wf depth [] = true := rfl

theorem Buf.read_eq_none_of_low {depth low : Nat} {b : Buf} (h : Buf.wfFrom depth low b = true) {k : Nat}
    (hk : k < low ∨ depth ≤ k) : Buf.read b k = none := by
  induction b generalizing low with
  | nil => rfl
  | cons e b ih =>
    obtain ⟨j, w⟩ := e
    simp only [Buf.wfFrom, Bool.and_eq_true, decide_eq_true_eq] at h
    rw [Buf.read, if_neg (by omega)]
    exact ih h.2 (by omega)

/-- A buffer in canonical form holds nothing at or beyond its depth. -/
theorem Buf.read_beyond {depth k : Nat} {b : Buf} (h : Buf.wf depth b = true) (hk : depth ≤ k) :
    Buf.read b k = none :=
  Buf.read_eq_none_of_low h (.inr hk)

/-- Two buffers in canonical form that read alike are equal data. -/
theorem Buf.eq_of_read_eq {depth low : Nat} {b c : Buf} (hb : Buf.wfFrom depth low b = true)
    (hc : Buf.wfFrom depth low c = true) (h : ∀ k, Buf.read b k = Buf.read c k) : b = c := by
  induction b generalizing c low with
  | nil =>
    cases c with
    | nil => rfl
    | cons e c => have := h e.1; simp [Buf.read] at this
  | cons e b ih =>
    cases c with
    | nil => have := h e.1; simp [Buf.read] at this
    | cons f c =>
      obtain ⟨i, v⟩ := e
      obtain ⟨j, w⟩ := f
      simp only [Buf.wfFrom, Bool.and_eq_true, decide_eq_true_eq] at hb hc
      have hij : i = j := by
        by_contra hne
        rcases Nat.lt_or_gt_of_ne hne with hlt | hgt
        · have := h i
          rw [Buf.read, if_pos rfl, Buf.read, if_neg hne,
            Buf.read_eq_none_of_low hc.2 (by omega)] at this
          exact absurd this (by simp)
        · have := h j
          rw [Buf.read, if_neg (Ne.symm hne), Buf.read, if_pos rfl,
            Buf.read_eq_none_of_low hb.2 (by omega)] at this
          exact absurd this (by simp)
      subst hij
      have hvw : v = w := by simpa [Buf.read] using h i
      subst hvw
      congr 1
      refine ih hb.2 hc.2 fun k => ?_
      by_cases hk : k = i
      · subst hk
        rw [Buf.read_eq_none_of_low hb.2 (by omega), Buf.read_eq_none_of_low hc.2 (by omega)]
      · simpa [Buf.read, hk] using h k

/-- `State.reset` has its memory in canonical form. -/
theorem reset_memoryWf : State.reset.memoryWf = true := rfl

end Sys2Proof.Machine
end

