-- ==== Sys2Proof/Laws/Codec.lean ====
section
/-! SUPPORT. What the codec's functions compute: the parts of well-formed tables, the inverse table, lookups of
lists, and encodes of legal and illegal chunks. -/

namespace Sys2Proof

/-! ### Well-formed parameters -/

theorem distinctCodes_nodup {cs : List Code} (h : distinctCodes cs = true) : cs.Nodup := by
  induction cs with
  | nil => exact List.nodup_nil
  | cons c cs ih =>
    simp only [distinctCodes, Bool.and_eq_true, Bool.not_eq_true', List.contains_eq_mem,
      decide_eq_false_iff_not] at h
    exact List.nodup_cons.2 ⟨h.1, ih h.2⟩

theorem tableWf_parts {t : List Code} (h : tableWf t = true) :
    t.length = 40 ∧ t.Nodup ∧ ∀ c ∈ t, 0x20 ≤ c.toNat ∧ c.toNat ≤ 0x7E := by
  simp only [tableWf, Bool.and_eq_true, beq_iff_eq, List.all_eq_true, printable,
    decide_eq_true_eq] at h
  exact ⟨h.1.1, distinctCodes_nodup h.1.2, h.2⟩

/-- The table of each dialect: 40 distinct printable codes, the space first (R142, R143). -/
theorem Params.wf_alphabet {p : Params} (h : p.wf = true) (d : Dialect) :
    (p.alphabet d).length = 40 ∧ (p.alphabet d).Nodup ∧
      (∀ c ∈ p.alphabet d, 0x20 ≤ c.toNat ∧ c.toNat ≤ 0x7E) ∧ (p.alphabet d)[0]? = some 0x20#7 := by
  simp only [Params.wf, alphabet11Wf, alphabet10Wf, Bool.and_eq_true] at h
  obtain ⟨⟨⟨⟨h1, h1'⟩, _⟩, h2, h2'⟩, _⟩ := h
  cases d with
  | pdp11 =>
    obtain ⟨a, b, c⟩ := tableWf_parts h1
    simp only [holdsEntries, pinned11, List.all_cons, Bool.and_eq_true, beq_iff_eq] at h1'
    exact ⟨a, b, c, h1'.1⟩
  | pdp10 =>
    obtain ⟨a, b, c⟩ := tableWf_parts h2
    simp only [holdsEntries, pinned10, List.all_cons, Bool.and_eq_true, beq_iff_eq] at h2'
    exact ⟨a, b, c, h2'.1⟩

/-- The bounds of R13. -/
theorem Params.wf_depths {p : Params} (h : p.wf = true) :
    1 ≤ p.inDepth ∧ p.inDepth ≤ 16384 ∧ 40 ≤ p.outDepth ∧ p.outDepth ≤ 16384 := by
  simp only [Params.wf, depthsWf, Bool.and_eq_true, decide_eq_true_eq] at h
  obtain ⟨_, ⟨⟨h1, h2⟩, h3⟩, h4⟩ := h
  exact ⟨h1, h2, h3, h4⟩

theorem Params.charOf_eq {p : Params} (h : p.wf = true) (d : Dialect) (g : Digit) :
    (p.alphabet d)[g.val]? = some (p.charOf d g) := by
  have hl := (Params.wf_alphabet h d).1
  have hg : g.val < (p.alphabet d).length := by omega
  simp [Params.charOf, List.getD, hg]

theorem Params.charOf_mem {p : Params} (h : p.wf = true) (d : Dialect) (g : Digit) :
    p.charOf d g ∈ p.alphabet d :=
  List.mem_of_getElem? (Params.charOf_eq h d g)

theorem Params.charOf_zero {p : Params} (h : p.wf = true) (d : Dialect) : p.charOf d 0 = 0x20#7 := by
  have h0 := (Params.wf_alphabet h d).2.2.2
  have := Params.charOf_eq h d 0
  simp only [Fin.val_zero] at this
  rw [h0] at this
  injection this with this
  exact this.symm

theorem Params.charOf_injective {p : Params} (h : p.wf = true) (d : Dialect) {g g' : Digit}
    (he : p.charOf d g = p.charOf d g') : g = g' := by
  have hl := (Params.wf_alphabet h d).1
  have h1 := Params.charOf_eq h d g
  have h2 := Params.charOf_eq h d g'
  rw [he] at h1
  have hg : g.val < (p.alphabet d).length := by omega
  have hg' : g'.val < (p.alphabet d).length := by omega
  rw [List.getElem?_eq_getElem hg] at h1
  rw [List.getElem?_eq_getElem hg'] at h2
  injection h1 with h1
  injection h2 with h2
  exact Fin.ext ((List.Nodup.getElem_inj_iff (Params.wf_alphabet h d).2.1).1 (h1.trans h2.symm))

/-! ### The inverse table -/

/-- Setting entries at distinct places: the place of an entry holds it, every other place is as before. -/
theorem foldl_set_getElem? (es : List (Code × Digit)) (t : List (Option Digit)) (a : Nat)
    (hn : (es.map Prod.fst).Nodup) (hl : t.length = 128) :
    (es.foldl (fun t e => t.set e.1.toNat (some e.2)) t)[a]? =
      match es.find? (fun e => e.1.toNat == a) with
      | some e => some (some e.2)
      | none => t[a]? := by
  induction es generalizing t with
  | nil => rfl
  | cons e es ih =>
    simp only [List.map_cons, List.nodup_cons] at hn
    rw [List.foldl_cons, ih _ hn.2 (by simp [hl]), List.find?_cons]
    by_cases he : e.1.toNat = a
    · have hnone : es.find? (fun e => e.1.toNat == a) = none := by
        rw [List.find?_eq_none]
        intro x hx hxa
        simp only [beq_iff_eq] at hxa
        exact hn.1 (List.mem_map.2 ⟨x, hx, BitVec.eq_of_toNat_eq (hxa.trans he.symm)⟩)
      have hlt : a < t.length := by have := e.1.isLt; omega
      simp [hnone, he, hlt]
    · have : (e.1.toNat == a) = false := by simpa using he
      rw [this]
      cases es.find? (fun e => e.1.toNat == a) with
      | some x => rfl
      | none => simp [he]

theorem invert_length (t : List Code) : (invert t).length = 128 := by
  unfold invert
  generalize t.zip (List.finRange 40) = es
  have : ∀ (es : List (Code × Digit)) (u : List (Option Digit)), u.length = 128 →
      (es.foldl (fun t e => t.set e.1.toNat (some e.2)) u).length = 128 := by
    intro es
    induction es with
    | nil => intro u h; exact h
    | cons e es ih => intro u h; exact ih _ (by simp [h])
  exact this es _ (by simp)

/-- The inverse table holds a digit exactly at the code of its character (R144). -/
theorem invert_getD_eq_some_iff {t : List Code} (hl : t.length = 40) (hn : t.Nodup) (a : Nat) (g : Digit) :
    (invert t).getD a none = some g ↔ ∃ c, t[g.val]? = some c ∧ c.toNat = a := by
  have hfst : (t.zip (List.finRange 40)).map Prod.fst = t := by
    rw [List.map_fst_zip]; simp [hl]
  have hget := foldl_set_getElem? (t.zip (List.finRange 40)) (List.replicate 128 none) a
    (by rw [hfst]; exact hn) (by simp)
  rw [List.getD_eq_getElem?_getD, invert, hget]
  constructor
  · intro h
    cases hf : (t.zip (List.finRange 40)).find? (fun e => e.1.toNat == a) with
    | none =>
      rw [hf] at h
      simp only [List.getElem?_replicate] at h
      split at h <;> simp at h
    | some e =>
      rw [hf] at h
      simp only [Option.getD_some, Option.some.injEq] at h
      have hmem := List.mem_of_find?_eq_some hf
      have hp := List.find?_some hf
      simp only [beq_iff_eq] at hp
      obtain ⟨n, hn', he⟩ := List.mem_iff_getElem.1 hmem
      simp only [List.length_zip, List.length_finRange, hl, Nat.min_self] at hn'
      rw [List.getElem_zip] at he
      have hg : e.2 = ⟨n, hn'⟩ := by rw [← he]; simp
      refine ⟨e.1, ?_, hp⟩
      rw [← h, hg, ← he]
      simp [hl, hn']
  · rintro ⟨c, hc, hca⟩
    have hmem : (c, g) ∈ t.zip (List.finRange 40) := by
      refine List.mem_iff_getElem.2 ⟨g.val, by simp [hl], ?_⟩
      rw [List.getElem_zip]
      have hlt : g.val < t.length := by omega
      rw [List.getElem?_eq_getElem hlt] at hc
      injection hc with hc
      simp [hc]
    cases hf : (t.zip (List.finRange 40)).find? (fun e => e.1.toNat == a) with
    | none =>
      rw [List.find?_eq_none] at hf
      exact absurd (by simpa using hca) (hf _ hmem)
    | some e =>
      have hmem' := List.mem_of_find?_eq_some hf
      have hp := List.find?_some hf
      simp only [beq_iff_eq] at hp
      have he1 : e.1 = c := BitVec.eq_of_toNat_eq (hp.trans hca.symm)
      obtain ⟨n, hn', he⟩ := List.mem_iff_getElem.1 hmem'
      simp only [List.length_zip, List.length_finRange, hl, Nat.min_self] at hn'
      rw [List.getElem_zip] at he
      have hlt : g.val < t.length := by omega
      rw [List.getElem?_eq_getElem hlt] at hc
      injection hc with hc
      have h1 : t[n] = t[g.val] := by rw [hc, ← he1, ← he]
      have h2 : n = g.val := (List.Nodup.getElem_inj_iff hn).1 h1
      have hg : e.2 = g := by rw [← he]; simpa [Fin.ext_iff] using h2
      simp [hg]

/-! ### Lookups of lists -/

/-- A list whose entries are all found gives their digits. -/
theorem lookupAll_ok {p : Params} {d : Dialect} (cs : List Word) (gs : List Digit) (pos : Nat)
    (hl : cs.length = gs.length)
    (h : ∀ (k : Nat) c g, cs[k]? = some c → gs[k]? = some g → ∀ q, lookup p d c q = .ok g) :
    lookupAll p d pos cs = .ok gs := by
  induction cs generalizing gs pos with
  | nil => cases gs with
    | nil => rfl
    | cons g gs => simp at hl
  | cons c cs ih => cases gs with
    | nil => simp at hl
    | cons g gs =>
      have h0 := h 0 c g (by simp) (by simp) pos
      have hr := ih gs (pos + 1) (by simpa using hl)
        (fun k c g hc hg => h (k + 1) c g (by simpa using hc) (by simpa using hg))
      simp [lookupAll, h0, hr]

/-- A list whose first entry not found is at `k` is reported there, whatever follows (R191). -/
theorem lookupAll_error {p : Params} {d : Dialect} (cs : List Word) (pos k : Nat) (c : Word)
    (hk : cs[k]? = some c) (hc : ∀ q, lookup p d c q = .error { char := c, pos := q })
    (h : ∀ (j : Nat) e, j < k → cs[j]? = some e → ∃ g, ∀ q, lookup p d e q = .ok g) :
    lookupAll p d pos cs = .error { char := c, pos := pos + k } := by
  induction cs generalizing pos k with
  | nil => simp at hk
  | cons b cs ih =>
    cases k with
    | zero =>
      have hb : b = c := by simpa using hk
      subst hb
      simp [lookupAll, hc]
    | succ k =>
      obtain ⟨g, hg⟩ := h 0 b (by omega) (by simp)
      have hr := ih (pos + 1) k (by simpa using hk)
        (fun j e hj he => h (j + 1) e (by omega) (by simpa using he))
      simp [lookupAll, hg, hr]
      omega

/-! ### Chunks -/

@[simp] theorem padded_length (d : Dialect) (s : List Word) : (padded d s).length = d.chars := by
  simp [padded]

theorem padded_getElem? (d : Dialect) (s : List Word) {k : Nat} (h : k < d.chars) :
    (padded d s)[k]? = some (s.getD k padChar) := by
  simp [padded, h]

theorem chunkAt_getD (d : Dialect) (s : List Word) (i : Nat) {k : Nat} (h : k < d.chars) :
    (chunkAt d s i).getD k padChar = s.getD (i * d.chars + k) padChar := by
  simp [chunkAt, List.getD_eq_getElem?_getD, h, List.getElem?_drop]

/-- Chunk encodes of a string whose chunks all encode. -/
theorem encodeChunks_ok {p : Params} {d : Dialect} (s : List Word) (i n : Nat)
    (w : Nat → BitVec d.width)
    (h : ∀ j, i ≤ j → j < i + n → encodeWord p d (chunkAt d s j) = .ok (w j)) :
    encodeChunks p d s i n = .ok ((List.range n).map fun j => w (i + j)) := by
  induction n generalizing i with
  | zero => rfl
  | succ n ih =>
    rw [encodeChunks, h i (Nat.le_refl i) (by omega)]
    simp only
    rw [ih (i + 1) (fun j h1 h2 => h j (by omega) (by omega))]
    simp only [List.range_succ_eq_map, List.map_cons, List.map_map, Nat.add_zero]
    congr 3
    funext j
    simp [Nat.add_assoc, Nat.add_comm 1 j]

/-- Chunk encodes of a string whose first failing chunk is `q` (R211, R212). -/
theorem encodeChunks_error {p : Params} {d : Dialect} (s : List Word) (i n q : Nat) (e : IllegalChar)
    (hq : i ≤ q) (hqn : q < i + n) (he : encodeWord p d (chunkAt d s q) = .error e)
    (h : ∀ j, i ≤ j → j < q → ∃ w, encodeWord p d (chunkAt d s j) = .ok w) :
    encodeChunks p d s i n = .error { char := e.char, pos := q * d.chars + e.pos } := by
  induction n generalizing i with
  | zero => omega
  | succ n ih =>
    by_cases hiq : i = q
    · subst hiq
      rw [encodeChunks, he]
    · obtain ⟨w, hw⟩ := h i (Nat.le_refl i) (by omega)
      rw [encodeChunks, hw]
      simp only
      rw [ih (i + 1) (by omega) (by omega) (fun j h1 h2 => h j (by omega) h2)]

end Sys2Proof
end

