-- ==== Sys2Proof/Laws/Ops.lean ====
section
/-! SUPPORT. For each shared operation, one lemma that says everything it can do. -/

namespace Sys2Proof.Machine

/-! ### Completion -/

/-- A completion that answers a next state wrote free results (R266) or a command's outcome (R236). -/
theorem State.complete_cases {s t : State} {e : Eval} (h : s.complete e = .next t) :
    (s.inputsTouched = true ∧ t = s.finishAny) ∨
      (s.inputsTouched = false ∧ ∃ r, e = .next r ∧ t = s.finish r) := by
  unfold State.complete at h
  split at h
  · next ht => injection h with h; exact .inl ⟨ht, h.symm⟩
  · next ht =>
    cases e with
    | next r => injection h with h; exact .inr ⟨by simpa using ht, r, rfl, h.symm⟩
    | fault f => cases h
    | refused r => cases h

theorem State.complete_touched {s : State} (e : Eval) (h : s.inputsTouched = true) :
    s.complete e = .next s.finishAny := by simp [State.complete, h]

theorem State.complete_next {s : State} (r : CmdResult) (h : s.inputsTouched = false) :
    s.complete (.next r) = .next (s.finish r) := by simp [State.complete, h]

theorem State.complete_fault {s : State} (f : Fault) (h : s.inputsTouched = false) :
    s.complete (.fault f) = .fault f := by simp [State.complete, h]

theorem State.complete_refused {s : State} (r : Refusal) (h : s.inputsTouched = false) :
    s.complete (.refused r) = .refused r := by simp [State.complete, h]

@[simp] theorem State.finish_ok (s : State) (out : List Word) : s.finish (.ok out) = s.finishOk out := rfl

@[simp] theorem State.finish_err (s : State) (e : CmdError) : s.finish (.err e) = s.finishErr e := rfl

/-- The fields no completion with an outcome writes, and the two flags it always writes. -/
theorem State.finish_frame (s : State) (r : CmdResult) :
    (s.finish r).params = s.params ∧ (s.finish r).lenIn = s.lenIn ∧ (s.finish r).inBuf = s.inBuf ∧
      (s.finish r).curCmd = s.curCmd ∧ (s.finish r).inputsTouched = s.inputsTouched ∧
      (s.finish r).delay = s.delay ∧ (s.finish r).pending = s.pending ∧
      (s.finish r).replies = s.replies ∧ (s.finish r).busy = false ∧ (s.finish r).done = true := by
  cases r <;> simp

/-! ### Operands -/

/-- The entries read are the ones the buffer holds. -/
theorem Buf.readFrom_ok_iff (b : Buf) (i n : Nat) (ws : List Word) :
    Buf.readFrom b i n = .ok ws ↔
      ws.length = n ∧ ∀ k, k < n → Buf.read b (i + k) = ws[k]? := by
  induction n generalizing i ws with
  | zero => cases ws <;> simp [Buf.readFrom]
  | succ n ih =>
    simp only [Buf.readFrom]
    cases hr : Buf.read b i with
    | none =>
      simp only [reduceCtorEq, false_iff, not_and, not_forall]
      intro hl
      refine ⟨0, Nat.succ_pos n, ?_⟩
      cases ws with
      | nil => simp at hl
      | cons w ws => simp [hr]
    | some w =>
      cases hrest : Buf.readFrom b (i + 1) n with
      | error j =>
        simp only [reduceCtorEq, false_iff, not_and, not_forall]
        intro hl
        cases ws with
        | nil => simp at hl
        | cons v vs =>
          have hne : ¬ (vs.length = n ∧ ∀ k, k < n → Buf.read b (i + 1 + k) = vs[k]?) := by
            rw [← ih]; simp [hrest]
          have hl' : vs.length = n := by simpa using hl
          simp only [hl', true_and, not_forall] at hne
          obtain ⟨k, hk, hk'⟩ := hne
          refine ⟨k + 1, by omega, ?_⟩
          rw [show i + (k + 1) = i + 1 + k by omega]
          simpa using hk'
      | ok vs =>
        have h1 := (ih (i + 1) vs).1 hrest
        constructor
        · intro h
          injection h with h
          subst h
          refine ⟨by simp [h1.1], fun k hk => ?_⟩
          cases k with
          | zero => simp [hr]
          | succ k =>
            rw [show i + (k + 1) = i + 1 + k by omega, h1.2 k (by omega)]
            simp
        · rintro ⟨hl, hall⟩
          have : w :: vs = ws := by
            refine List.ext_getElem? fun k => ?_
            cases k with
            | zero => simpa [hr] using hall 0 (Nat.succ_pos n)
            | succ k =>
              by_cases hk : k < n
              · rw [← hall (k + 1) (by omega), show i + (k + 1) = i + 1 + k by omega, h1.2 k hk]
                simp
              · rw [List.getElem?_eq_none (by simp [h1.1]; omega), List.getElem?_eq_none (by omega)]
          simp [this]

/-- The first entry that holds no value is the one reported. -/
theorem Buf.readFrom_error_iff (b : Buf) (i n j : Nat) :
    Buf.readFrom b i n = .error j ↔
      i ≤ j ∧ j < i + n ∧ Buf.read b j = none ∧ ∀ k, i ≤ k → k < j → (Buf.read b k).isSome = true := by
  induction n generalizing i with
  | zero => simp [Buf.readFrom]; omega
  | succ n ih =>
    simp only [Buf.readFrom]
    cases hr : Buf.read b i with
    | none =>
      constructor
      · intro h
        injection h with h
        subst h
        exact ⟨Nat.le_refl i, by omega, hr, fun k h1 h2 => by omega⟩
      · rintro ⟨h1, _, _, h4⟩
        by_cases hij : i = j
        · rw [hij]
        · have := h4 i (Nat.le_refl i) (by omega)
          simp [hr] at this
    | some w =>
      have hbase := ih (i + 1)
      have key : Buf.readFrom b (i + 1) n = .error j ↔
          i ≤ j ∧ j < i + (n + 1) ∧ Buf.read b j = none ∧
            ∀ k, i ≤ k → k < j → (Buf.read b k).isSome = true := by
        rw [hbase]
        constructor
        · rintro ⟨h1, h2, h3, h4⟩
          refine ⟨by omega, by omega, h3, fun k hk1 hk2 => ?_⟩
          by_cases hki : k = i
          · subst hki; simp [hr]
          · exact h4 k (by omega) hk2
        · rintro ⟨h1, h2, h3, h4⟩
          have hne : i ≠ j := by rintro rfl; simp [hr] at h3
          exact ⟨by omega, by omega, h3, fun k hk1 hk2 => h4 k (by omega) hk2⟩
      rw [← key]
      cases Buf.readFrom b (i + 1) n <;> simp

/-- A command's outcome comes from entries that all hold a value. -/
theorem State.withInputs_cases {s : State} {n : Nat} {f : List Word → CmdResult} {r : CmdResult}
    (h : s.withInputs n f = .next r) :
    ∃ ws, ws.length = n ∧ (∀ k, k < n → Buf.read s.inBuf k = ws[k]?) ∧ r = f ws := by
  unfold State.withInputs at h
  cases hr : Buf.readFrom s.inBuf 0 n with
  | error i => rw [hr] at h; cases h
  | ok ws =>
    rw [hr] at h
    injection h with h
    have := (Buf.readFrom_ok_iff _ _ _ _).1 hr
    exact ⟨ws, this.1, by simpa using this.2, h.symm⟩

/-- A command whose entries all hold a value has its outcome. -/
theorem State.withInputs_next {s : State} {ws : List Word} (f : List Word → CmdResult)
    (h : ∀ k, k < ws.length → Buf.read s.inBuf k = ws[k]?) :
    s.withInputs ws.length f = .next (f ws) := by
  have : Buf.readFrom s.inBuf 0 ws.length = .ok ws :=
    (Buf.readFrom_ok_iff _ _ _ _).2 ⟨rfl, by simpa using h⟩
  simp [State.withInputs, this]

/-- Reading operands never refuses. -/
theorem State.withInputs_ne_refused (s : State) (n : Nat) (f : List Word → CmdResult) (r : Refusal) :
    s.withInputs n f ≠ .refused r := by
  unfold State.withInputs
  split <;> simp

/-! ### The meanings -/

/-- What a command computes before its completion step writes it. -/
def evalOf (i : Instr) : State → Eval :=
  match i.op with
  | .enc => evalEnc i.dialect
  | .encw => evalEncw i.dialect
  | .dec => evalDec i.dialect
  | .decw => evalDecw i.dialect
  | .alpha => evalAlpha i.dialect
  | .lookup => evalLookup i.dialect

/-- Every meaning is the completion of what its command computes. -/
theorem exec_eq_complete (i : Instr) (s : State) : exec i s = s.complete (evalOf i s) := by
  cases i <;> rfl

/-- A command's step writes free results (R266) or the command's outcome (R236). -/
theorem exec_cases {i : Instr} {s t : State} (h : exec i s = .next t) :
    (s.inputsTouched = true ∧ t = s.finishAny) ∨
      (s.inputsTouched = false ∧ ∃ r, evalOf i s = .next r ∧ t = s.finish r) :=
  State.complete_cases (exec_eq_complete i s ▸ h)

/-! ### The host port -/

/-- What acceptance does (R235). -/
theorem State.acceptCommand_cases (s : State) (v : Word) :
    (s.busy = true ∧ s.acceptCommand v = s) ∨
      (s.busy = false ∧ ∃ n, n ≤ Config.latency ∧ s.acceptCommand v = (s.accepted v n).drawn) := by
  unfold State.acceptCommand
  split
  · next h => exact .inl ⟨h, rfl⟩
  · next h =>
    exact .inr ⟨by simpa using h, _, Nat.le_of_lt_succ (Nat.mod_lt _ (Nat.succ_pos _)), rfl⟩

/-- A result register gives a free value, or a value with the state as it was. -/
theorem State.readResult_cases (s : State) (w : Word) :
    s.readResult w = s.anyWord ∨ ∃ v, s.readResult w = (v, s) := by
  unfold State.readResult
  split <;> simp

theorem State.readInBuf_cases (s : State) (i : Nat) :
    s.readInBuf i = s.anyWord ∨ ∃ v, s.readInBuf i = (v, s) := by
  unfold State.readInBuf
  split <;> simp

theorem State.readOutBufIdle_cases (s : State) (i : Nat) :
    s.readOutBufIdle i = s.anyWord ∨ ∃ v, s.readOutBufIdle i = (v, s) := by
  unfold State.readOutBufIdle
  split
  · simp
  · split <;> simp

theorem State.readOutBuf_cases (s : State) (i : Nat) :
    s.readOutBuf i = s.anyWord ∨ ∃ v, s.readOutBuf i = (v, s) := by
  unfold State.readOutBuf
  split
  · simp
  · exact s.readOutBufIdle_cases i

/-- A read gives a free value, which it uses up, or a value with the state as it was (R84, R90). -/
theorem State.memRead_cases (s : State) (off : Nat) :
    s.memRead off = s.anyWord ∨ ∃ v, s.memRead off = (v, s) := by
  unfold State.memRead
  cases target s.params off with
  | lenOut | errChar | errPos => exact s.readResult_cases _
  | inBuf i => exact s.readInBuf_cases i
  | outBuf i => exact s.readOutBuf_cases i
  | cmd | status | lenIn | inDepth | outDepth | unmapped => exact .inr ⟨_, rfl⟩

/-- The offsets of the register map (R33, R82), as conditions. -/
theorem target_cases (p : Params) (off : Nat) :
    (off = 0x00000 ∧ target p off = .cmd) ∨ (off = 0x00004 ∧ target p off = .status) ∨
      (off = 0x00008 ∧ target p off = .lenIn) ∨ (off = 0x0000C ∧ target p off = .lenOut) ∨
      (off = 0x00010 ∧ target p off = .errChar) ∨ (off = 0x00014 ∧ target p off = .errPos) ∨
      (off = 0x00018 ∧ target p off = .inDepth) ∨ (off = 0x0001C ∧ target p off = .outDepth) ∨
      (∃ i, (off - 0x10000) / 4 = i ∧ 0x10000 ≤ off ∧ i < p.inDepth ∧ target p off = .inBuf i) ∨
      (∃ i, (off - 0x20000) / 4 = i ∧ 0x20000 ≤ off ∧ i < p.outDepth ∧ target p off = .outBuf i) ∨
      target p off = .unmapped := by
  unfold target
  by_cases h0 : off = 0x00000
  · simp [h0]
  by_cases h1 : off = 0x00004
  · simp [h1]
  by_cases h2 : off = 0x00008
  · simp [h2]
  by_cases h3 : off = 0x0000C
  · simp [h3]
  by_cases h4 : off = 0x00010
  · simp [h4]
  by_cases h5 : off = 0x00014
  · simp [h5]
  by_cases h6 : off = 0x00018
  · simp [h6]
  by_cases h7 : off = 0x0001C
  · simp [h7]
  rw [if_neg h0, if_neg h1, if_neg h2, if_neg h3, if_neg h4, if_neg h5, if_neg h6, if_neg h7]
  by_cases hin : 0x10000 ≤ off ∧ off < 0x10000 + 4 * p.inDepth
  · rw [if_pos hin]
    exact .inr (.inr (.inr (.inr (.inr (.inr (.inr (.inr (.inl ⟨_, rfl, hin.1, by omega, rfl⟩))))))))
  rw [if_neg hin]
  by_cases hout : 0x20000 ≤ off ∧ off < 0x20000 + 4 * p.outDepth
  · rw [if_pos hout]
    exact .inr (.inr (.inr (.inr (.inr (.inr (.inr (.inr (.inr (.inl
      ⟨_, rfl, hout.1, by omega, rfl⟩)))))))))
  rw [if_neg hout]
  simp

/-- What a write does (R85 to R87). -/
theorem State.memWrite_cases (s : State) (off : Nat) (v : Word) :
    s.memWrite off v = s ∨ (off = 0 ∧ s.memWrite off v = s.acceptCommand v) ∨
      (off = 8 ∧ s.memWrite off v = s.writeLenIn v) ∨
      ∃ i, (off - 0x10000) / 4 = i ∧ 0x10000 ≤ off ∧ i < s.params.inDepth ∧
        s.memWrite off v = s.writeInBuf i v := by
  unfold State.memWrite
  rcases target_cases s.params off with
    ⟨h, e⟩ | ⟨h, e⟩ | ⟨h, e⟩ | ⟨h, e⟩ | ⟨h, e⟩ | ⟨h, e⟩ | ⟨h, e⟩ | ⟨h, e⟩ | ⟨i, h, h', hi, e⟩ |
      ⟨i, h, h', hi, e⟩ | e <;> rw [e]
  case inl => exact .inr (.inl ⟨h, rfl⟩)
  case inr.inr.inl => exact .inr (.inr (.inl ⟨h, rfl⟩))
  case inr.inr.inr.inr.inr.inr.inr.inr.inl => exact .inr (.inr (.inr ⟨i, h, h', hi, rfl⟩))
  all_goals exact .inl rfl

/-- A step of a well-formed unit when it is the unit's turn. -/
theorem step_unit {s : State} (h : s.params.wf = true) (hm : s.nextMove = .unit) :
    step s = unitStep s := by
  rw [step, if_pos h, hm]

/-- A step of a well-formed unit when it is the host's turn. -/
theorem step_host {s : State} {a : HostAction} {rest : List HostAction} (h : s.params.wf = true)
    (hm : s.nextMove = .host a rest) : step s = .next (s.hostTurn a rest) := by
  rw [step, if_pos h, hm]

/-- A step of a well-formed unit with nothing to do. -/
theorem step_idle {s : State} (h : s.params.wf = true) (hm : s.nextMove = .idle) :
    step s = .next s := by
  rw [step, if_pos h, hm]

/-- Everything a step that answers a next state can be. -/
theorem step_cases {s t : State} (h : step s = .next t) :
    s.params.wf = true ∧
      ((s.nextMove = .unit ∧ unitStep s = .next t) ∨
        (∃ a rest, s.nextMove = .host a rest ∧ t = s.hostTurn a rest) ∨
        (s.nextMove = .idle ∧ t = s)) := by
  by_cases hw : s.params.wf = true
  · refine ⟨hw, ?_⟩
    cases hm : s.nextMove with
    | unit => rw [step_unit hw hm] at h; exact .inl ⟨rfl, h⟩
    | host a rest =>
      rw [step_host hw hm] at h; injection h with h; exact .inr (.inl ⟨a, rest, rfl, h.symm⟩)
    | idle => rw [step_idle hw hm] at h; injection h with h; exact .inr (.inr ⟨rfl, h.symm⟩)
  · rw [step, if_neg hw] at h; cases h

/-- A completion step is the completion of one outcome (R236): the decoded command's, or `ILLEGAL_CMD`. -/
theorem unitStep_eq_complete (s : State) :
    (∃ i, decode s.curCmd = .ok i ∧ unitStep s = s.complete (evalOf i s)) ∨
      ((∃ e, decode s.curCmd = .error e) ∧ unitStep s = s.complete (.next (.err .illegalCmd))) := by
  unfold unitStep
  cases hd : decode s.curCmd with
  | ok i => exact .inl ⟨i, rfl, exec_eq_complete i s⟩
  | error e => exact .inr ⟨⟨e, rfl⟩, rfl⟩

/-- A host read leaves the state as it was but for the reply and the count of free values. -/
theorem State.busRead_cases (s : State) (off : Nat) :
    s.busRead off = s.reply off (s.memRead off).1 ∨
      s.busRead off = s.drawn.reply off (s.memRead off).1 := by
  unfold State.busRead
  rcases s.memRead_cases off with h | ⟨v, h⟩ <;> simp [h, State.anyWord]

theorem State.nextMove_host {s : State} {a : HostAction} {rest : List HostAction}
    (h : s.nextMove = .host a rest) : s.pending = a :: rest ∧ ¬s.unitFirst a := by
  unfold State.nextMove at h
  split at h
  · split at h <;> cases h
  · next b tail hp =>
    split at h
    · cases h
    · next hb => injection h with h1 h2; subst h1; subst h2; exact ⟨hp, hb⟩

theorem State.nextMove_of_pending {s : State} {a : HostAction} {rest : List HostAction}
    (h : s.pending = a :: rest) (hd : ¬s.unitFirst a) : s.nextMove = .host a rest := by
  unfold State.nextMove
  simp only [h]
  rw [if_neg hd]

/-- A reset that comes next acts, whatever the unit does (R260). -/
theorem State.nextMove_reset {s : State} {rest : List HostAction} (h : s.pending = .reset :: rest) :
    s.nextMove = .host .reset rest :=
  State.nextMove_of_pending h (by simp [State.unitFirst])

/-- When the unit moves: a command runs, and no host action is left or its completion comes first. -/
theorem State.nextMove_unit_iff (s : State) :
    s.nextMove = .unit ↔
      s.busy = true ∧ (s.pending = [] ∨
        ∃ a rest, s.pending = a :: rest ∧ (a = .pause ∨ a ≠ .reset ∧ s.delay = 0)) := by
  unfold State.nextMove
  split
  · next hp => split <;> simp_all
  · next hp => split <;> simp_all [State.unitFirst]

end Sys2Proof.Machine
end

