-- ==== Sys2Proof/Laws/Bus.lean ====
section
/-! SUPPORT. The host port location by location: what each offset names, reads as and takes. -/

namespace Sys2Proof.Machine

/-- The entries of the `IN_BUF` window (R33). -/
theorem target_inBuf {p : Params} {i : Nat} (h : i < p.inDepth) :
    target p (0x10000 + 4 * i) = .inBuf i := by
  unfold target
  repeat rw [if_neg (by omega)]
  rw [if_pos (by omega)]
  congr 1
  omega

/-- The entries of the `OUT_BUF` window (R33): the windows do not overlap (R13). -/
theorem target_outBuf {p : Params} {i : Nat} (hin : p.inDepth ≤ 16384) (h : i < p.outDepth) :
    target p (0x20000 + 4 * i) = .outBuf i := by
  unfold target
  repeat rw [if_neg (by omega)]
  rw [if_pos (by omega)]
  congr 1
  omega

theorem State.memRead_cmd (s : State) : s.memRead 0x00 = (0#32, s) := by
  simp [State.memRead, target]

theorem State.memRead_status (s : State) : s.memRead 0x04 = (s.statusWord, s) := by
  simp [State.memRead, target]

theorem State.memRead_lenIn (s : State) : s.memRead 0x08 = (s.lenIn, s) := by
  simp [State.memRead, target]

theorem State.memRead_lenOut (s : State) : s.memRead 0x0C = s.readResult s.lenOut := by
  simp [State.memRead, target]

theorem State.memRead_errChar (s : State) : s.memRead 0x10 = s.readResult s.errChar := by
  simp [State.memRead, target]

theorem State.memRead_errPos (s : State) : s.memRead 0x14 = s.readResult s.errPos := by
  simp [State.memRead, target]

theorem State.memRead_inDepth (s : State) :
    s.memRead 0x18 = (BitVec.ofNat 32 s.params.inDepth, s) := by
  simp [State.memRead, target]

theorem State.memRead_outDepth (s : State) :
    s.memRead 0x1C = (BitVec.ofNat 32 s.params.outDepth, s) := by
  simp [State.memRead, target]

theorem State.memRead_inBuf {s : State} {i : Nat} (h : i < s.params.inDepth) :
    s.memRead (0x10000 + 4 * i) = s.readInBuf i := by
  unfold State.memRead
  rw [target_inBuf h]

theorem State.memRead_outBuf {s : State} {i : Nat} (hin : s.params.inDepth ≤ 16384)
    (h : i < s.params.outDepth) : s.memRead (0x20000 + 4 * i) = s.readOutBuf i := by
  unfold State.memRead
  rw [target_outBuf hin h]

theorem State.memRead_unmapped {s : State} {off : Nat} (h : target s.params off = .unmapped) :
    s.memRead off = (0#32, s) := by
  unfold State.memRead
  rw [h]

theorem State.memWrite_cmd (s : State) (v : Word) : s.memWrite 0x00 v = s.acceptCommand v := by
  simp [State.memWrite, target]

theorem State.memWrite_lenIn (s : State) (v : Word) : s.memWrite 0x08 v = s.writeLenIn v := by
  simp [State.memWrite, target]

theorem State.memWrite_inBuf {s : State} {i : Nat} (v : Word) (h : i < s.params.inDepth) :
    s.memWrite (0x10000 + 4 * i) v = s.writeInBuf i v := by
  unfold State.memWrite
  rw [target_inBuf h]

theorem State.memWrite_unmapped {s : State} {off : Nat} (v : Word)
    (h : target s.params off = .unmapped) : s.memWrite off v = s := by
  unfold State.memWrite
  rw [h]

/-- A result register reads as stored while no command runs (R84). -/
theorem State.readResult_idle {s : State} (w : Word) (h : s.busy = false) : s.readResult w = (w, s) := by
  simp [State.readResult, h]

/-- A result register reads as a free value while a command runs (R267). -/
theorem State.readResult_busy {s : State} (w : Word) (h : s.busy = true) :
    s.readResult w = (Config.freeWord s.draws, s.drawn) := by
  simp [State.readResult, h, State.anyWord]

/-- A host read: the reply, and at most one free value drawn. -/
theorem State.hostTurn_read_cases (s : State) (addr : BusAddr) (rest : List HostAction) :
    ∃ v, s.hostTurn (.read addr) rest = (s.hostTakes rest).reply (byteOffset addr) v ∨
      s.hostTurn (.read addr) rest = (s.hostTakes rest).drawn.reply (byteOffset addr) v :=
  ⟨_, (s.hostTakes rest).busRead_cases (byteOffset addr)⟩

/-- A poll: the reply, and the poll still to come while the unit is busy. -/
theorem State.hostTurn_poll (s : State) (rest : List HostAction) :
    s.hostTurn .poll rest =
      (s.hostTakes (if s.busy then .poll :: rest else rest)).reply 0x04 s.statusWord := by
  simp only [State.hostTurn, State.busRead, State.memRead_status]
  rfl

/-- A host write. -/
theorem State.hostTurn_write (s : State) (addr : BusAddr) (v : Word) (rest : List HostAction) :
    s.hostTurn (.write addr v) rest = (s.hostTakes rest).memWrite (byteOffset addr) v := rfl

/-- A pause that is over. -/
theorem State.hostTurn_pause (s : State) (rest : List HostAction) :
    s.hostTurn .pause rest = s.withPending rest := rfl

/-- The reset input. -/
theorem State.hostTurn_reset (s : State) (rest : List HostAction) :
    s.hostTurn .reset rest = (s.withPending rest).resetUnit := rfl

end Sys2Proof.Machine
end

