-- ==== Sys2Proof/Laws/PerInstr.lean ====
section
/-! SUPPORT. Per-command facts about the syntax: every command has its words, and they are defined. -/

namespace Sys2Proof.Laws.EncodeDefined

/-- The encoding of the command is a defined word (R113) that the opcode table's pattern gives:
`OP` in bits 3:0, `D` in bit 8; and the command is the one of its operation and dialect. -/
def Statement (i : Instr) : Prop :=
  commandDefined (encode i) = true ∧ opOfCode (opField (encode i)) = some i.op ∧
    dialectField (encode i) = i.dialect ∧ Instr.ofParts i.op i.dialect = i

theorem enc11 : Statement .enc11 := by unfold Statement; decide

theorem enc10 : Statement .enc10 := by unfold Statement; decide

theorem encw11 : Statement .encw11 := by unfold Statement; decide

theorem encw10 : Statement .encw10 := by unfold Statement; decide

theorem dec11 : Statement .dec11 := by unfold Statement; decide

theorem dec10 : Statement .dec10 := by unfold Statement; decide

theorem decw11 : Statement .decw11 := by unfold Statement; decide

theorem decw10 : Statement .decw10 := by unfold Statement; decide

theorem alpha11 : Statement .alpha11 := by unfold Statement; decide

theorem alpha10 : Statement .alpha10 := by unfold Statement; decide

theorem lookup11 : Statement .lookup11 := by unfold Statement; decide

theorem lookup10 : Statement .lookup10 := by unfold Statement; decide

end Sys2Proof.Laws.EncodeDefined
end

