-- ==== Sys2Proof/Tests/Slice0.lean ====
section
/-! SUPPORT. Tests with expected values from the spec's own vectors, and the witnesses of the statements' hypotheses. -/

namespace Sys2Proof.Tests

open Sys2Proof Sys2Proof.Machine Sys2Proof.Claims

-- One theorem after the other: the kernel evaluations below would each hold a thread.
set_option Elab.async false

/-! ### Command words, written out bit by bit from R111's pattern and R112's codes -/

theorem test_decode_enc : decode 0b00000000000000000000000000000001#32 = .ok .enc11 ∧
    decode 0b00000000000000000000000100000001#32 = .ok .enc10 := by decide

theorem test_decode_encw : decode 0b00000000000000000000000000000010#32 = .ok .encw11 ∧
    decode 0b00000000000000000000000100000010#32 = .ok .encw10 := by decide

theorem test_decode_dec : decode 0b00000000000000000000000000000011#32 = .ok .dec11 ∧
    decode 0b00000000000000000000000100000011#32 = .ok .dec10 := by decide

theorem test_decode_decw : decode 0b00000000000000000000000000000100#32 = .ok .decw11 ∧
    decode 0b00000000000000000000000100000100#32 = .ok .decw10 := by decide

theorem test_decode_alpha : decode 0b00000000000000000000000000000101#32 = .ok .alpha11 ∧
    decode 0b00000000000000000000000100000101#32 = .ok .alpha10 := by decide

theorem test_decode_lookup : decode 0b00000000000000000000000000000110#32 = .ok .lookup11 ∧
    decode 0b00000000000000000000000100000110#32 = .ok .lookup10 := by decide

/-- X1 to X6: reserved operations and reserved bits. -/
theorem test_decode_reserved : decode 0x00000000#32 = .error (.reservedOp 0#4) ∧
    decode 0x00000007#32 = .error (.reservedOp 7#4) ∧
    decode 0x0000000F#32 = .error (.reservedOp 15#4) ∧
    decode 0x00000011#32 = .error .reservedBits ∧ decode 0x00000201#32 = .error .reservedBits ∧
    decode 0x80000101#32 = .error .reservedBits := by decide

/-- R113's table of the twelve words. -/
theorem test_encode : [Instr.enc11, .encw11, .dec11, .decw11, .alpha11, .lookup11, .enc10, .encw10,
      .dec10, .decw10, .alpha10, .lookup10].map encode =
    [0x001#32, 0x002#32, 0x003#32, 0x004#32, 0x005#32, 0x006#32, 0x101#32, 0x102#32, 0x103#32,
      0x104#32, 0x105#32, 0x106#32] := by decide

theorem test_decode_table_word : decodeTableWord 32 0x103 = some .dec10 ∧
    decodeTableWord 32 0x113 = none ∧ decodeTableWord 40 0x103 = none := by decide

/-! ### Well-formedness: an ill-formed term for each check, refused -/

theorem test_wf_command_word : commandDefined 0x00000106#32 = true ∧
    commandDefined 0x00000016#32 = false ∧ commandDefined 0x00000206#32 = false ∧
    commandDefined 0x00000100#32 = false ∧ commandDefined 0x00000107#32 = false := by decide

theorem test_wf_default : Params.default.wf = true := by decide +kernel

/-- 39 and 41 entries. -/
theorem test_wf_length : tableWf (defaultAlphabet10.take 39) = false ∧
    tableWf (defaultAlphabet10 ++ [0x2A#7]) = false := by decide +kernel

/-- A duplicate: the second `T` stands where `%` stood. -/
theorem test_wf_duplicate : tableWf (defaultAlphabet10.set 39 0x54#7) = false ∧
    alphabet10Wf (defaultAlphabet10.set 39 0x54#7) = false := by decide +kernel

/-- The printable codes end at 0x20 and 0x7E. -/
theorem test_wf_printable : tableWf (defaultAlphabet10.set 39 0x1F#7) = false ∧
    tableWf (defaultAlphabet10.set 39 0x7F#7) = false ∧
    tableWf (defaultAlphabet10.set 39 0x7E#7) = true := by decide +kernel

/-- An entry of R142 changed: digit 39 of PDP-11, digit 18 of PDP-10. -/
theorem test_wf_pinned : alphabet11Wf (defaultAlphabet11.set 39 0x2A#7) = false ∧
    alphabet10Wf (defaultAlphabet10.set 18 0x2A#7) = false ∧
    alphabet11Wf (defaultAlphabet11.set 38 0x2A#7) = true := by decide +kernel

/-- `_` is in no PDP-11 entry (R142); R142 says nothing of it for PDP-10. -/
theorem test_wf_underscore : alphabet11Wf (defaultAlphabet11.set 29 0x5F#7) = false ∧
    alphabet10Wf (defaultAlphabet10.set 39 0x5F#7) = true := by decide +kernel

/-- R13's bounds. -/
theorem test_wf_depths : depthsWf 1 40 = true ∧ depthsWf 16384 16384 = true ∧
    depthsWf 0 40 = false ∧ depthsWf 1 39 = false ∧ depthsWf 16385 40 = false ∧
    depthsWf 1 16385 = false := by decide

/-- The table of R140 and R141, glyph by glyph. -/
theorem test_default_tables :
    defaultAlphabet11 = [0x20#7, 0x41#7, 0x42#7, 0x43#7, 0x44#7, 0x45#7, 0x46#7, 0x47#7, 0x48#7,
      0x49#7, 0x4A#7, 0x4B#7, 0x4C#7, 0x4D#7, 0x4E#7, 0x4F#7, 0x50#7, 0x51#7, 0x52#7, 0x53#7,
      0x54#7, 0x55#7, 0x56#7, 0x57#7, 0x58#7, 0x59#7, 0x5A#7, 0x24#7, 0x2E#7, 0x25#7] ++
      [0x30#7, 0x31#7, 0x32#7, 0x33#7, 0x34#7, 0x35#7, 0x36#7, 0x37#7, 0x38#7, 0x39#7] ∧
    defaultAlphabet10 = [0x20#7, 0x30#7, 0x31#7, 0x32#7, 0x33#7, 0x34#7, 0x35#7, 0x36#7, 0x37#7,
      0x38#7, 0x39#7] ++ [0x41#7, 0x42#7, 0x43#7, 0x44#7, 0x45#7, 0x46#7, 0x47#7, 0x48#7, 0x49#7,
      0x4A#7, 0x4B#7, 0x4C#7, 0x4D#7, 0x4E#7, 0x4F#7, 0x50#7, 0x51#7, 0x52#7, 0x53#7, 0x54#7,
      0x55#7, 0x56#7, 0x57#7, 0x58#7, 0x59#7, 0x5A#7] ++ [0x2E#7, 0x24#7, 0x25#7] := by
  decide +kernel

/-! ### Pack and unpack: the spec's check values (R171, R174; P1 to P15) -/

theorem test_pack : (pack .pdp11 [39, 39, 39]).toNat = 63999 ∧
    (pack .pdp10 [39, 39, 39, 39, 39, 39]).toNat = 4095999999 ∧
    (pack .pdp11 [0, 1, 0]).toNat = 40 := by decide +kernel

theorem test_unpack : unpack .pdp11 64000#16 = [0, 0, 0] ∧ unpack .pdp11 65535#16 = [0, 38, 15] ∧
    unpack .pdp10 4096000000#32 = [0, 0, 0, 0, 0, 0] ∧
    unpack .pdp10 0xFFFFFFFF#32 = [1, 37, 28, 34, 22, 15] := by decide +kernel

/-- R80, on S6's first word and S5's. -/
theorem test_serialize : serialize .pdp10 [0xB9ED6353#32] = [0xB9#8, 0xED#8, 0x63#8, 0x53#8] ∧
    serialize .pdp11 [0x7E49#16, 0x0325#16] = [0x7E#8, 0x49#8, 0x03#8, 0x25#8] := by decide +kernel

/-! ### One command each, from the spec's vectors -/

/-- The state after reset with `LEN_IN` and the first `IN_BUF` entries written. -/
def loaded (len : Nat) (entries : List Word) : State :=
  (State.reset.withLenIn (BitVec.ofNat 32 len)).withInBuf (Buf.writeFrom [] 0 entries)

/-- `STATUS`, `LEN_OUT`, `ERR_CHAR` and `ERR_POS` after a step. -/
def status (o : Host.Outcome State Fault Refusal) : Option (Word × Word × Word × Word) :=
  (nextOf o).map fun t => (t.statusWord, t.lenOut, t.errChar, t.errPos)

/-- `STATUS`, `LEN_OUT` and the values that `OUT_BUF` holds after a step. -/
def outputs (o : Host.Outcome State Fault Refusal) : Option (Word × Word × List Word) :=
  (nextOf o).map fun t => (t.statusWord, t.lenOut, t.outBuf.map Prod.snd)

/-- "THIS IS A TEST", with the entry at one index replaced. -/
def thisIsATest (k : Nat) (c : Word) : List Word :=
  [0x54#32, 0x48#32, 0x49#32, 0x53#32, 0x20#32, 0x49#32, 0x53#32, 0x20#32, 0x41#32, 0x20#32,
    0x54#32, 0x45#32, 0x53#32, 0x54#32].set k c

/-- S5. -/
theorem test_enc11 : outputs (exec .enc11 (loaded 14 (thisIsATest 0 0x54#32))) =
    some (2#32, 5#32, [32329#32, 30409#32, 30401#32, 805#32, 31200#32]) := by decide +kernel

/-- S10: the global position of the second chunk's third character. -/
theorem test_enc11_illegal : status (exec .enc11 (loaded 14 (thisIsATest 5 0x5F#32))) =
    some (0x12#32, 0#32, 0x5F#32, 6#32) := by decide +kernel

/-- S6. -/
theorem test_enc10 : outputs (exec .enc10 (loaded 14 (thisIsATest 0 0x54#32))) =
    some (2#32, 3#32, [0xB9ED6353#32, 0xB10B42BF#32, 0xB5946000#32]) := by decide +kernel

/-- E7, and S12 for the empty string. -/
theorem test_enc10_illegal : status (exec .enc10 (loaded 14 (thisIsATest 5 0x5F#32))) =
      some (0x12#32, 0#32, 0x5F#32, 6#32) ∧
    outputs (exec .enc10 State.reset) = some (2#32, 0#32, []) := by decide +kernel

/-- S1 and W10: the fourth character is not checked. -/
theorem test_encw11 :
    outputs (exec .encw11 (loaded 3 [0x41#32, 0x42#32, 0x43#32])) = some (2#32, 1#32, [1683#32]) ∧
    outputs (exec .encw11 (loaded 4 [0x41#32, 0x42#32, 0x43#32, 0x5F#32])) =
      some (2#32, 1#32, [1683#32]) := by decide +kernel

/-- W12, W13 and W14. -/
theorem test_encw11_errors :
    status (exec .encw11 (loaded 3 [0x41#32, 0x42#32, 0x5F#32])) =
      some (0x12#32, 0#32, 0x5F#32, 3#32) ∧
    status (exec .encw11 (loaded 3 [0x5F#32, 0x42#32, 0x5F#32])) =
      some (0x12#32, 0#32, 0x5F#32, 1#32) ∧
    status (exec .encw11 (loaded 1025 [])) = some (0x32#32, 0#32, 0#32, 0#32) := by decide +kernel

/-- S3 and W6. -/
theorem test_encw10 :
    outputs (exec .encw10 (loaded 6 [0x41#32, 0x42#32, 0x43#32, 0x44#32, 0x45#32, 0x46#32])) =
      some (2#32, 1#32, [1157975016#32]) ∧
    outputs (exec .encw10 (loaded 1 [0x41#32])) = some (2#32, 1#32, [1126400000#32]) := by
  decide +kernel

/-- W8. -/
theorem test_encw10_empty : outputs (exec .encw10 State.reset) = some (2#32, 1#32, [0#32]) := by
  decide +kernel

/-- E12 and E13. -/
theorem test_dec11 :
    outputs (exec .dec11 (loaded 2 [1683#32, 63999#32])) =
      some (2#32, 6#32, [0x41#32, 0x42#32, 0x43#32, 0x39#32, 0x39#32, 0x39#32]) ∧
    outputs (exec .dec11 (loaded 2 [64000#32, 65535#32])) =
      some (2#32, 6#32, [0x20#32, 0x20#32, 0x20#32, 0x20#32, 0x38#32, 0x4F#32]) := by decide +kernel

/-- E16. -/
theorem test_dec11_length : status (exec .dec11 (loaded 0xFFFFFFFF [])) =
    some (0x32#32, 0#32, 0#32, 0#32) := by decide +kernel

/-- S8. -/
theorem test_dec10 :
    outputs (exec .dec10 (loaded 3 [0xB9ED6353#32, 0xB10B42BF#32, 0xB5946000#32])) =
    some (2#32, 18#32, thisIsATest 0 0x54#32 ++ [0x20#32, 0x20#32, 0x20#32, 0x20#32]) := by
  decide +kernel

/-- S13. -/
theorem test_dec10_empty : outputs (exec .dec10 State.reset) = some (2#32, 0#32, []) := by
  decide +kernel

/-- S4 and W20: bits 31:16 of the entry are ignored. -/
theorem test_decw11 :
    outputs (exec .decw11 (loaded 1 [1683#32])) =
      some (2#32, 3#32, [0x41#32, 0x42#32, 0x43#32]) ∧
    outputs (exec .decw11 (loaded 1 [0x00010693#32])) =
      some (2#32, 3#32, [0x41#32, 0x42#32, 0x43#32]) := by decide +kernel

/-- W26. -/
theorem test_decw11_length : status (exec .decw11 State.reset) =
    some (0x32#32, 0#32, 0#32, 0#32) := by decide +kernel

/-- W22 and W23. -/
theorem test_decw10 :
    outputs (exec .decw10 (loaded 1 [1157975016#32])) =
      some (2#32, 6#32, [0x41#32, 0x42#32, 0x43#32, 0x44#32, 0x45#32, 0x46#32]) ∧
    outputs (exec .decw10 (loaded 1 [0xFFFFFFFF#32])) =
      some (2#32, 6#32, [0x30#32, 0x2E#32, 0x52#32, 0x58#32, 0x4C#32, 0x45#32]) := by decide +kernel

/-- W27. -/
theorem test_decw10_length : status (exec .decw10 (loaded 2 [0#32, 0#32])) =
    some (0x32#32, 0#32, 0#32, 0#32) := by decide +kernel

/-- A17: the pinned entries that it lists. -/
theorem test_alpha11 :
    (outputs (exec .alpha11 State.reset)).map (fun r =>
      (r.1, r.2.1, [0, 1, 2, 3, 5, 8, 9, 19, 20, 39].map fun k => r.2.2.getD k 0#32)) =
    some (2#32, 40#32, [0x20#32, 0x41#32, 0x42#32, 0x43#32, 0x45#32, 0x48#32, 0x49#32, 0x53#32,
      0x54#32, 0x39#32]) := by decide +kernel

/-- A18: never `LENGTH`. -/
theorem test_alpha10 :
    (outputs (exec .alpha10 (loaded 0xFFFFFFFF []))).map (fun r =>
      (r.1, r.2.1, [0, 11, 16, 18, 29, 30, 39].map fun k => r.2.2.getD k 0#32)) =
    some (2#32, 40#32, [0x20#32, 0x41#32, 0x46#32, 0x48#32, 0x53#32, 0x54#32, 0x25#32]) := by
  decide +kernel

/-- A2 and A4. -/
theorem test_lookup11 :
    outputs (exec .lookup11 (loaded 1 [0x41#32])) = some (2#32, 1#32, [1#32]) ∧
    outputs (exec .lookup11 (loaded 1 [0x39#32])) = some (2#32, 1#32, [39#32]) := by decide +kernel

/-- A9, A13 and A16. -/
theorem test_lookup11_errors :
    status (exec .lookup11 (loaded 1 [0x5F#32])) = some (0x12#32, 0#32, 0x5F#32, 1#32) ∧
    status (exec .lookup11 (loaded 1 [0x120#32])) = some (0x12#32, 0#32, 0x120#32, 1#32) ∧
    status (exec .lookup11 (loaded 2 [0x5F#32])) = some (0x32#32, 0#32, 0#32, 0#32) := by
  decide +kernel

/-- A3 and A6. -/
theorem test_lookup10 :
    outputs (exec .lookup10 (loaded 1 [0x41#32])) = some (2#32, 1#32, [11#32]) ∧
    outputs (exec .lookup10 (loaded 1 [0x25#32])) = some (2#32, 1#32, [39#32]) := by decide +kernel

/-- A12. -/
theorem test_lookup10_illegal : status (exec .lookup10 (loaded 1 [0xFFFFFFFF#32])) =
    some (0x12#32, 0#32, 0xFFFFFFFF#32, 1#32) := by decide +kernel

/-- H9: the third character was never written. -/
theorem test_unwritten_input :
    exec .enc11 (loaded 3 [0x41#32, 0x42#32]) = .fault (.unwrittenInput 2) := rfl

/-! ### The host port, from the spec's vectors (H1 to H12) -/

/-- The state with one host action to come. -/
def withAction (s : State) (a : HostAction) : State := s.withPending [a]

/-- What the step returns to the host. -/
def replied (s : State) : Option (List (Nat × Word)) := (nextOf (step s)).map State.replies

/-- A command word accepted, with one more host access before its completion. -/
def running (v : Word) (s : State) : State := s.accepted v 1

/-- H2. -/
theorem test_read_depths : replied (withAction State.reset (rd 0x18)) = some [(0x18, 0x400#32)] ∧
    replied (withAction State.reset (rd 0x1C)) = some [(0x1C, 0x1800#32)] := by decide +kernel

/-- H3 and H4. -/
theorem test_read_unmapped : replied (withAction State.reset (rd 0x00)) = some [(0x00, 0#32)] ∧
    replied (withAction State.reset (rd 0x20)) = some [(0x20, 0#32)] ∧
    replied (withAction State.reset (rd 0x11000)) = some [(0x11000, 0#32)] := by decide +kernel

/-- Q4, line 3, read back: a written `IN_BUF` entry of an idle unit (R45, R84). -/
theorem test_read_in_buf :
    replied (withAction (loaded 3 [0x41#32, 0x42#32, 0x43#32]) (rd 0x10004)) =
      some [(0x10004, 0x42#32)] := by decide +kernel

/-- H12. -/
theorem test_status_busy :
    replied (withAction (running 1#32 State.reset) (rd 0x04)) = some [(0x04, 1#32)] := by
  decide +kernel

/-- H7. -/
theorem test_write_len_in :
    (nextOf (step (withAction State.reset (wr 0x08 7#32)))).map State.lenIn = some 7#32 := by
  decide +kernel

/-- R119: `LOADS "AB"`, then `RUN ENCW.11`, as offsets and data. -/
theorem test_host_program : load [0x41#32, 0x42#32] ++ runCommand .encw11 =
    [.write (busAddr 0x08) 2#32, .write (busAddr 0x10000) 0x41#32, .write (busAddr 0x10004) 0x42#32,
      .write (busAddr 0x00) 2#32, .poll] := by decide

/-- H10: `BUSY` clears and `DONE` sets after a hazard. -/
theorem test_hazard :
    (nextOf (step (((running 1#32 State.reset).writeInBuf 0 0x41#32).withPending []))).map
      (fun t => (t.busy, t.done)) = some (false, true) := by decide +kernel

/-- X7: `ILLEGAL_CMD` before `LENGTH`. -/
theorem test_undefined_word :
    status (step ((loaded 5000 []).withFetchWord 32 0x107)) =
      some (0x22#32, 0#32, 0#32, 0#32) ∧
    status (step ((loaded 5000 []).withFetchWord 32 0x001)) = some (0x32#32, 0#32, 0#32, 0#32) := by
  decide +kernel

/-- H11: a reset while a command runs, also one whose delay is over (R260). -/
theorem test_reset_while_busy :
    status (step (withAction (running 1#32 (loaded 3 [])) .reset)) =
      some (0#32, 0#32, 0#32, 0#32) ∧
    status (step (withAction ((loaded 3 []).accepted 1#32 0) .reset)) =
      some (0#32, 0#32, 0#32, 0#32) := by decide +kernel

/-- R260: a reset behind a pause comes after the completion step. -/
theorem test_pause_before_reset :
    status (step ((running 4#32 (loaded 3 [])).withPending [.pause, .reset])) =
      some (0x32#32, 0#32, 0#32, 0#32) := by decide +kernel

/-! ### Witnesses: states and operands that meet the hypotheses of each statement

`witness_<Name>` below: the hypotheses of `Obligations.<Name>`, met together. -/

/-- A unit with small buffers, 3 and 40 entries. -/
def smallParams : Params := { Params.default with inDepth := 3, outDepth := 40 }

/-- A loaded unit with small buffers. -/
def smallUnit (len : Nat) (entries : List Word) : State :=
  { loaded len entries with params := smallParams }

/-- A loaded unit that refuses over-long `ENCW`. -/
def strictUnit (len : Nat) (entries : List Word) : State :=
  { loaded len entries with params := { Params.default with overlong := .refuse } }

/-- The state after reset with one `OUT_BUF` entry written. -/
def withOutput (v : Word) : State := { State.reset with outBuf := [(0, v)], done := true, lenOut := 1#32 }

/-- The state after a command that ended with an error. -/
def failed : State := State.reset.finishErr .length

theorem small_wf : smallParams.wf = true := by decide +kernel

/-- It is the host's turn where the unit does not come first. -/
theorem host_turn {s : State} {a : HostAction} (hp : s.params.wf = true) (h : ¬s.unitFirst a) :
    hostDoes (withAction s a) a [] := ⟨hp, rfl, h⟩

theorem host_reads {s : State} {off : Nat} (hp : s.params.wf = true)
    (h : ¬(s.busy = true ∧ s.delay = 0)) (ho : 4 * (busAddr off).toNat = off) :
    hostReads (withAction s (rd off)) [] off :=
  ⟨busAddr off, ho, host_turn hp fun ⟨hb, hd⟩ => hd.elim nofun fun hd => h ⟨hb, hd.2⟩⟩

theorem host_writes {s : State} {off : Nat} {v : Word} (hp : s.params.wf = true)
    (h : ¬(s.busy = true ∧ s.delay = 0)) (ho : 4 * (busAddr off).toNat = off) :
    hostWrites (withAction s (wr off v)) [] off v :=
  ⟨busAddr off, ho, host_turn hp fun ⟨hb, hd⟩ => hd.elim nofun fun hd => h ⟨hb, hd.2⟩⟩

theorem witness_DecoderTakesExactlyTheDefinedWords :
    definedWord 0x106#32 ∧ ¬definedWord 0x107#32 ∧ decode 0x106#32 = .ok .lookup10 := by
  unfold definedWord; decide

theorem witness_StepRunsTheDecodedCommand :
    unitDue (State.reset.withFetchWord 32 0x101) ∧
      decode (State.reset.withFetchWord 32 0x101).curCmd = .ok .enc10 :=
  ⟨⟨test_wf_default, rfl, .inr ⟨_, _, rfl, .inl rfl⟩⟩, by decide⟩

theorem witness_PlacedCommandRunsNext : State.reset.params.wf = true := test_wf_default

/-- The unit is due before an access when the delay is over, and before a pause or with no action to come
whatever the delay. -/
theorem witness_unitDue : unitDue (withAction (State.reset.accepted 1#32 0) .poll) ∧
    unitDue (withAction (State.reset.accepted 1#32 5) .pause) ∧
    unitDue (State.reset.accepted 1#32 5) :=
  ⟨⟨test_wf_default, rfl, .inr ⟨_, _, rfl, .inr ⟨nofun, rfl⟩⟩⟩,
    ⟨test_wf_default, rfl, .inr ⟨_, _, rfl, .inl rfl⟩⟩, ⟨test_wf_default, rfl, .inl rfl⟩⟩

theorem witness_UndefinedWordCompletesIllegalCmd :
    unitDue (State.reset.withFetchWord 32 0x201) ∧
      (State.reset.withFetchWord 32 0x201).inputsTouched = false ∧
      ¬definedWord (State.reset.withFetchWord 32 0x201).curCmd :=
  ⟨⟨test_wf_default, rfl, .inr ⟨_, _, rfl, .inl rfl⟩⟩, rfl, by unfold definedWord; decide⟩

theorem witness_IllFormedUnitIsRefused :
    ¬({ State.reset with params := { Params.default with inDepth := 0 } }.params.wf = true) := by
  decide +kernel

theorem witness_DefaultUnitIsNeverRefused :
    State.reset.params.wf = true ∧ State.reset.params.overlong = .truncate := ⟨test_wf_default, rfl⟩

theorem witness_HostAccessesNeverStop : (withAction State.reset (wr 0x00 1#32)).params.wf = true ∧
    ¬unitDue (withAction State.reset (wr 0x00 1#32)) :=
  ⟨test_wf_default, fun h => absurd h.2.1 Bool.false_ne_true⟩

theorem witness_IdleUnitKeepsEverything :
    State.reset.params.wf = true ∧ State.reset.busy = false ∧ State.reset.pending = [] :=
  ⟨test_wf_default, rfl, rfl⟩

/-- With exactly `IN_DEPTH` characters. -/
theorem witness_EncWritesTheWordsOfItsChunks :
    (smallUnit 3 [0x41#32, 0x42#32, 0x43#32]).params.wf = true ∧
      (smallUnit 3 [0x41#32, 0x42#32, 0x43#32]).len = [(11 : Digit), 12, 13].length ∧
      ¬lengthMisfit .enc10 (smallUnit 3 [0x41#32, 0x42#32, 0x43#32]) ∧
      holdsInputs (smallUnit 3 [0x41#32, 0x42#32, 0x43#32])
        ([(11 : Digit), 12, 13].map
          (charEntry (smallUnit 3 [0x41#32, 0x42#32, 0x43#32]).params .pdp10)) :=
  ⟨small_wf, by decide, by simp only [lengthMisfit, Instr.op]; decide, by unfold holdsInputs; decide +kernel⟩

theorem witness_EncOfNothingWritesNothing :
    State.reset.inputsTouched = false ∧ State.reset.lenIn = 0#32 := ⟨rfl, rfl⟩

theorem witness_EncReportsTheFirstIllegalCharacter :
    (loaded 3 [0x41#32, 0x5F#32, 0x5F#32]).len = 3 ∧
      ¬lengthMisfit .enc11 (loaded 3 [0x41#32, 0x5F#32, 0x5F#32]) ∧
      holdsInputs (loaded 3 [0x41#32, 0x5F#32, 0x5F#32]) [0x41#32, 0x5F#32, 0x5F#32] ∧
      ¬legalChar Params.default .pdp11 0x5F#32 ∧ legalChar Params.default .pdp11 0x41#32 :=
  ⟨by decide, by simp only [lengthMisfit, Instr.op]; decide, by unfold holdsInputs; decide,
    by unfold legalChar; decide +kernel, by unfold legalChar; decide +kernel⟩

/-- No character, and more than `N`. -/
theorem witness_EncwWritesOneWord :
    (¬lengthMisfit .encw11 State.reset ∧ holdsInputs State.reset []) ∧
    ¬lengthMisfit .encw11 (loaded 4 [0x41#32, 0x42#32, 0x43#32]) ∧
      [(1 : Digit), 2, 3].length = min (loaded 4 [0x41#32, 0x42#32, 0x43#32]).len 3 ∧
      holdsInputs (loaded 4 [0x41#32, 0x42#32, 0x43#32])
        ([(1 : Digit), 2, 3].map (charEntry Params.default .pdp11)) :=
  ⟨⟨by simp only [lengthMisfit, Instr.op]; decide, by unfold holdsInputs; decide⟩, by simp only [lengthMisfit, Instr.op]; decide,
    by decide, by unfold holdsInputs; decide +kernel⟩

/-- The last character that is looked at is illegal. -/
theorem witness_EncwReportsTheFirstIllegalCharacter :
    ¬lengthMisfit .encw11 (loaded 4 [0x41#32, 0x42#32, 0x5F#32]) ∧
      [0x41#32, 0x42#32, 0x5F#32].length = min (loaded 4 [0x41#32, 0x42#32, 0x5F#32]).len 3 ∧
      holdsInputs (loaded 4 [0x41#32, 0x42#32, 0x5F#32]) [0x41#32, 0x42#32, 0x5F#32] ∧
      [0x41#32, 0x42#32, 0x5F#32][2]? = some 0x5F#32 ∧
      ¬legalChar Params.default .pdp11 0x5F#32 ∧ legalChar Params.default .pdp11 0x42#32 :=
  ⟨by simp only [lengthMisfit, Instr.op]; decide, by decide, by unfold holdsInputs; decide, by decide,
    by unfold legalChar; decide +kernel, by unfold legalChar; decide +kernel⟩

theorem witness_EncwIgnoresEntriesBeyondN : Instr.encw11.dialect.chars ≤ 3 ∧
    ∃ t, exec .encw11 (loaded 4 [0x41#32, 0x42#32, 0x43#32]) = .next t := ⟨by decide, _, rfl⟩

theorem witness_EncwOverlongIsRefusedWhereTheParameterSaysSo :
    ¬lengthMisfit .encw11 (strictUnit 4 []) ∧ Instr.encw11.dialect.chars < (strictUnit 4 []).len ∧
      (strictUnit 4 []).params.overlong = .refuse :=
  ⟨by simp only [lengthMisfit, Instr.op]; decide, by decide, rfl⟩

/-- With exactly `OUT_DEPTH` bounds met: 3 words of 6 characters into 40 entries; 13 of 3 are E18. -/
theorem witness_DecWritesTheCharactersOfItsWords :
    (smallUnit 3 [0#32, 1#32, 0xFFFFFFFF#32]).params.wf = true ∧
      (smallUnit 3 [0#32, 1#32, 0xFFFFFFFF#32]).len = [0#32, 1#32, 0xFFFFFFFF#32].length ∧
      ¬lengthMisfit .dec10 (smallUnit 3 [0#32, 1#32, 0xFFFFFFFF#32]) ∧
      holdsInputs (smallUnit 3 [0#32, 1#32, 0xFFFFFFFF#32]) [0#32, 1#32, 0xFFFFFFFF#32] :=
  ⟨small_wf, by decide, by simp only [lengthMisfit, Instr.op]; decide, by unfold holdsInputs; decide⟩

theorem witness_DecOfNothingWritesNothing :
    State.reset.inputsTouched = false ∧ State.reset.lenIn = 0#32 := ⟨rfl, rfl⟩

theorem witness_DecwWritesTheCharactersOfItsWord : (loaded 1 [0xFFFFFFFF#32]).len = 1 ∧
    Buf.read (loaded 1 [0xFFFFFFFF#32]).inBuf 0 = some 0xFFFFFFFF#32 := by decide

theorem witness_AlphaWritesTheAlphabet : State.reset.inputsTouched = false := rfl

theorem witness_LookupWritesTheDigit : (loaded 1 [0x39#32]).len = 1 ∧
    Buf.read (loaded 1 [0x39#32]).inBuf 0 =
      some (charEntry (loaded 1 [0x39#32]).params .pdp11 39) := by decide +kernel

/-- An absent 7-bit code, and the two smallest values above 0x7F that matter. -/
theorem witness_LookupReportsAnIllegalCharacter : (loaded 1 [0x80#32]).len = 1 ∧
    Buf.read (loaded 1 [0x80#32]).inBuf 0 = some 0x80#32 ∧
    ¬legalChar Params.default .pdp10 0x80#32 ∧ ¬legalChar Params.default .pdp10 0x120#32 ∧
    ¬legalChar Params.default .pdp10 0x5F#32 := by
  unfold legalChar; decide +kernel

/-- A misfit of each operation, just past its bound. -/
theorem witness_LengthIsRaisedExactlyOnMisfit :
    lengthMisfit .enc11 (smallUnit 4 []) ∧ lengthMisfit .encw10 (smallUnit 4 []) ∧
    lengthMisfit .dec11 (smallUnit 4 []) ∧ lengthMisfit .decw10 State.reset ∧
    lengthMisfit .decw11 (loaded 2 []) ∧ lengthMisfit .lookup11 State.reset ∧
    lengthMisfit .lookup10 (loaded 2 []) := by
  simp only [lengthMisfit, Instr.op]; decide

/-- E10 and E17: the output does not fit; E11 and E18: it just fits. -/
theorem witness_LengthOfTheOutput :
    lengthMisfit .enc11 { loaded 121 [] with params := { Params.default with outDepth := 40 } } ∧
    lengthMisfit .dec11 { loaded 14 [] with params := { Params.default with outDepth := 40 } } ∧
    ¬lengthMisfit .enc11 { loaded 120 [] with params := { Params.default with outDepth := 40 } } ∧
    ¬lengthMisfit .dec11 { loaded 13 [] with params := { Params.default with outDepth := 40 } } := by
  simp only [lengthMisfit, Instr.op]; decide

/-- A command that does not misfit and answers a next state. -/
theorem witness_LengthNotRaised : ¬lengthMisfit .alpha11 State.reset ∧
    ∃ t, exec .alpha11 State.reset = .next t := ⟨by simp only [lengthMisfit, Instr.op]; decide, _, rfl⟩

theorem witness_UnwrittenInputIsAFault :
    ¬lengthMisfit .enc11 (loaded 3 [0x41#32, 0x42#32]) ∧
      2 < readCount .enc11 (loaded 3 [0x41#32, 0x42#32]) ∧
      Buf.read (loaded 3 [0x41#32, 0x42#32]).inBuf 2 = none ∧
      ∀ k, k < 2 → (Buf.read (loaded 3 [0x41#32, 0x42#32]).inBuf k).isSome = true :=
  ⟨by simp only [lengthMisfit, Instr.op]; decide, by decide, by decide, by decide⟩

/-- `DECW` and `LOOKUP` with entry 0 unwritten; `ENCW` with its last entry unwritten. -/
theorem witness_UnwrittenInputOfTheOthers :
    ¬lengthMisfit .decw10 (loaded 1 []) ∧ 0 < readCount .decw10 (loaded 1 []) ∧
    ¬lengthMisfit .lookup11 (loaded 1 []) ∧ 0 < readCount .lookup11 (loaded 1 []) ∧
    ¬lengthMisfit .encw11 (loaded 4 [0x41#32, 0x42#32]) ∧
    2 < readCount .encw11 (loaded 4 [0x41#32, 0x42#32]) := by
  simp only [lengthMisfit, Instr.op]; decide

/-- A success and an error. -/
theorem witness_CommandFrame :
    (∃ t, exec .encw11 State.reset = .next t ∧ t.err = .none) ∧
    ∃ t, exec .decw11 State.reset = .next t ∧ t.err = .length :=
  ⟨⟨_, rfl, rfl⟩, ⟨_, rfl, rfl⟩⟩

theorem witness_AlphabetBijection : Params.default.wf = true ∧ smallParams.wf = true :=
  ⟨test_wf_default, small_wf⟩

theorem witness_LookupFindsExactlyTheAlphabet : Params.default.wf = true ∧
    ¬legalChar Params.default .pdp11 0x5F#32 ∧ legalChar Params.default .pdp11 0x39#32 :=
  ⟨test_wf_default, by unfold legalChar; decide +kernel, by unfold legalChar; decide +kernel⟩

theorem witness_PackIsThePositionalValue :
    [(39 : Digit), 39, 39].length = Dialect.chars .pdp11 ∧
    [(39 : Digit), 39, 39, 39, 39, 39].length = Dialect.chars .pdp10 := by decide

theorem witness_PackAndUnpackAreInverse : [(1 : Digit), 2, 3].length = Dialect.chars .pdp11 := by
  decide

theorem witness_PaddingMakesNoDifference : ([] : List Word).length < Dialect.chars .pdp11 ∧
    [0x41#32, 0x42#32, 0x43#32, 0x44#32, 0x45#32].length < Dialect.chars .pdp10 := by decide

theorem witness_DecodedCharactersAreOfTheAlphabet : Params.default.wf = true := test_wf_default

theorem witness_DecodeOfEncodeIsThePaddedText : smallParams.wf = true := small_wf

theorem witness_CommandWriteIsAcceptedOrDropped :
    hostWrites (withAction State.reset (wr 0x00 1#32)) [] 0x00 1#32 ∧
    hostWrites (withAction (running 1#32 State.reset) (wr 0x00 4#32)) [] 0x00 4#32 ∧
    (running 1#32 State.reset).busy = true ∧ State.reset.busy = false :=
  ⟨host_writes test_wf_default (by decide) (by decide),
    host_writes test_wf_default (by decide) (by decide), rfl, rfl⟩

/-- `LEN_IN`, and the first and the last `IN_BUF` entry. -/
theorem witness_OperandWriteStoresTheValue :
    hostWrites (withAction State.reset (wr 0x08 7#32)) [] 0x08 7#32 ∧
    hostWrites (withAction State.reset (wr 0x10000 7#32)) [] 0x10000 7#32 ∧
    hostWrites (withAction State.reset (wr 0x10FFC 7#32)) [] (0x10000 + 4 * 1023) 7#32 ∧
    1023 < State.reset.params.inDepth :=
  ⟨host_writes test_wf_default (by decide) (by decide),
    host_writes test_wf_default (by decide) (by decide),
    host_writes test_wf_default (by decide) (by decide), by decide⟩

/-- A write to `STATUS` and to the last `OUT_BUF` entry. -/
theorem witness_ReadOnlyWriteHasNoEffect :
    hostWrites (withAction State.reset (wr 0x04 0xFF#32)) [] 0x04 0xFF#32 ∧
    hostWrites (withAction State.reset (wr 0x25FFC 5#32)) [] 0x25FFC 5#32 ∧
    readOnlyOffset Params.default 0x04 ∧ readOnlyOffset Params.default 0x25FFC ∧
    ¬readOnlyOffset Params.default 0x26000 :=
  ⟨host_writes test_wf_default (by decide) (by decide),
    host_writes test_wf_default (by decide) (by decide), by unfold readOnlyOffset; decide,
    by unfold readOnlyOffset; decide, by unfold readOnlyOffset; decide⟩

/-- The first offset behind each mapped range, and the last offset of all. -/
theorem witness_UnmappedOffsetsReadZeroAndTakeNoWrite :
    (¬mappedOffset Params.default 0x20 ∧ ¬mappedOffset Params.default 0x11000 ∧
      ¬mappedOffset Params.default 0x26000 ∧ ¬mappedOffset Params.default 0x3FFFC) ∧
    hostReads (withAction State.reset (rd 0x20)) [] 0x20 ∧
    hostWrites (withAction State.reset (wr 0x3FFFC 1#32)) [] 0x3FFFC 1#32 :=
  ⟨by unfold mappedOffset; decide, host_reads test_wf_default (by decide) (by decide),
    host_writes test_wf_default (by decide) (by decide)⟩

/-- Each register, and an `IN_BUF` entry that holds a value, idle and busy. -/
theorem witness_RegistersReadAsStored :
    (hostReads (withAction (loaded 1 [0x41#32]) (rd 0x10000)) [] 0x10000 ∧
      hostReads (withAction (running 1#32 (loaded 1 [0x41#32])) (rd 0x10000)) [] 0x10000 ∧
      Buf.read (loaded 1 [0x41#32]).inBuf 0 = some 0x41#32 ∧
      0 < (loaded 1 [0x41#32]).params.inDepth) ∧
    hostReads (withAction State.reset (rd 0x00)) [] 0x00 ∧
    hostReads (withAction State.reset (rd 0x04)) [] 0x04 ∧
    hostReads (withAction State.reset (rd 0x08)) [] 0x08 ∧
    hostReads (withAction State.reset (rd 0x18)) [] 0x18 ∧
    hostReads (withAction State.reset (rd 0x1C)) [] 0x1C :=
  ⟨⟨host_reads test_wf_default (by decide) (by decide),
      host_reads test_wf_default (by decide) (by decide), by decide, by decide⟩,
    host_reads test_wf_default (by decide) (by decide),
    host_reads test_wf_default (by decide) (by decide),
    host_reads test_wf_default (by decide) (by decide),
    host_reads test_wf_default (by decide) (by decide),
    host_reads test_wf_default (by decide) (by decide)⟩

/-- Busy: every register, a written `IN_BUF` entry and the last `OUT_BUF` entry are within reach. -/
theorem witness_ResultsReadFreeWhileBusy (off : Nat) (h : 4 * (busAddr off).toNat = off) :
    hostReads (withAction (running 1#32 (loaded 1 [0x41#32])) (rd off)) [] off ∧
    (running 1#32 (loaded 1 [0x41#32])).memoryWf = true ∧
    (running 1#32 (loaded 1 [0x41#32])).flagsOk ∧ (running 1#32 (loaded 1 [0x41#32])).clearedOk ∧
    (running 1#32 (loaded 1 [0x41#32])).busy = true ∧
    Buf.read (running 1#32 (loaded 1 [0x41#32])).inBuf 0 = some 0x41#32 :=
  ⟨host_reads test_wf_default (by decide) h, by decide, by unfold State.flagsOk; decide,
    fun _ => ⟨rfl, rfl, rfl, rfl⟩, rfl, by decide⟩

/-- Idle, with a result. -/
theorem witness_ResultsReadExactAfter (off : Nat) (h : 4 * (busAddr off).toNat = off) :
    hostReads (withAction (withOutput 5#32) (rd off)) [] off ∧
    (withOutput 5#32).memoryWf = true ∧ (withOutput 5#32).flagsOk ∧ (withOutput 5#32).clearedOk ∧
    (withOutput 5#32).busy = false ∧ Buf.read (withOutput 5#32).outBuf 0 = some 5#32 :=
  ⟨host_reads test_wf_default (by decide) h, by decide, by unfold State.flagsOk; decide,
    by unfold State.clearedOk; decide, rfl, by decide⟩

/-- The offsets that the two witnesses above are used at. -/
theorem witness_offsets : ∀ off ∈ [0x04, 0x08, 0x0C, 0x10, 0x14, 0x18, 0x1C, 0x10000, 0x20000, 0x25FFC],
    4 * (busAddr off).toNat = off := by decide

/-- The two together at one offset of each clause: `STATUS`, the first `IN_BUF` entry and the last
`OUT_BUF` entry while busy, the first `OUT_BUF` entry when idle. -/
theorem witness_ResultsReadFreeWhileBusyAndExactAfter :
    hostReads (withAction (running 1#32 (loaded 1 [0x41#32])) (rd 0x04)) [] 0x04 ∧
    hostReads (withAction (running 1#32 (loaded 1 [0x41#32])) (rd 0x10000)) [] 0x10000 ∧
    hostReads (withAction (running 1#32 (loaded 1 [0x41#32])) (rd 0x25FFC)) [] 0x25FFC ∧
    hostReads (withAction (withOutput 5#32) (rd 0x20000)) [] 0x20000 :=
  ⟨(witness_ResultsReadFreeWhileBusy 0x04 (by decide)).1,
    (witness_ResultsReadFreeWhileBusy 0x10000 (by decide)).1,
    (witness_ResultsReadFreeWhileBusy 0x25FFC (by decide)).1,
    (witness_ResultsReadExactAfter 0x20000 (by decide)).1⟩

theorem witness_EntriesWithoutAValueReadFree :
    hostReads (withAction State.reset (rd 0x10FFC)) [] (0x10000 + 4 * 1023) ∧
    hostReads (withAction State.reset (rd 0x20000)) [] (0x20000 + 4 * 0) ∧
    hostReads (withAction failed (rd 0x25FFC)) [] (0x20000 + 4 * 6143) ∧
    Buf.read State.reset.inBuf 1023 = none ∧ Buf.read State.reset.outBuf 0 = none ∧
    State.reset.outDraw = none ∧ Buf.read failed.outBuf 6143 = none ∧ failed.outDraw = some 0 ∧
    failed.busy = false :=
  ⟨host_reads test_wf_default (by decide) (by decide),
    host_reads test_wf_default (by decide) (by decide),
    host_reads test_wf_default (by decide) (by decide), rfl, rfl, rfl, rfl, rfl, rfl⟩

theorem witness_ReadsHaveNoSideEffect :
    hostReads (withAction State.reset (rd 0x3FFFC)) [] 0x3FFFC :=
  host_reads test_wf_default (by decide) (by decide)

/-- A `POLL` of a running command and one of an idle unit. -/
theorem witness_PollWaitsForBusyToClear :
    hostDoes (withAction (running 1#32 State.reset) .poll) .poll [] ∧
    hostDoes (withAction State.reset .poll) .poll [] :=
  ⟨host_turn test_wf_default (by decide), host_turn test_wf_default (by decide)⟩

/-- The hazard of R266: marked by a write, kept by a step, ended by the completion. -/
theorem witness_InputsWrittenWhileBusyMakeTheResultsFree :
    (hostWrites (withAction (running 1#32 State.reset) (wr 0x08 3#32)) [] 0x08 3#32 ∧
      hostWrites (withAction (running 1#32 State.reset) (wr 0x10FFC 3#32)) []
        (0x10000 + 4 * 1023) 3#32) ∧
    (∃ t, step (withAction ((running 1#32 State.reset).writeLenIn 3#32) .poll) = .next t ∧
      t.busy = true) ∧
    unitDue ((running 1#32 State.reset).writeLenIn 3#32) ∧
    ((running 1#32 State.reset).writeLenIn 3#32).inputsTouched = true :=
  ⟨⟨host_writes test_wf_default (by decide) (by decide),
      host_writes test_wf_default (by decide) (by decide)⟩,
    ⟨_, if_pos test_wf_default, rfl⟩, ⟨test_wf_default, rfl, .inl rfl⟩, rfl⟩

theorem witness_TouchedCommandCompletesFree :
    ((running 1#32 State.reset).writeInBuf 0 3#32).inputsTouched = true := rfl

theorem witness_ResetClearsTheUnit : hostDoes (withAction failed .reset) .reset [] :=
  host_turn test_wf_default (by decide)

/-- With a delay left, and with the delay over. -/
theorem witness_ResetAbandonsTheRunningCommand :
    (withAction (running 1#32 State.reset) .reset).busy = true ∧
    hostDoes (withAction (running 1#32 State.reset) .reset) .reset [] ∧
    hostDoes (withAction (State.reset.accepted 1#32 0) .reset) .reset [] :=
  ⟨rfl, host_turn test_wf_default (by decide), host_turn test_wf_default (by decide)⟩

/-- A step after which a command runs whose delay is over. -/
theorem witness_ResetComesBetweenAnyTwoSteps :
    ∃ t, step (withAction (State.reset.accepted 1#32 1) .poll) = .next t ∧ t.busy = true ∧
      t.delay = 0 := ⟨_, if_pos test_wf_default, rfl, rfl⟩

/-- A pause of a host while a command runs, and one while none does. -/
theorem witness_PauseLetsTheCommandComplete :
    (withAction (running 1#32 State.reset) .pause).pending = [.pause] ∧
    (withAction (running 1#32 State.reset) .pause).busy = true ∧
    decode (withAction (running 1#32 State.reset) .pause).curCmd = .ok .enc11 ∧
    (withAction State.reset .pause).busy = false := ⟨rfl, rfl, by decide, rfl⟩

/-- A step that draws three free values, and one that accepts a command. -/
theorem witness_DrawsNeverGoBack :
    (∃ t, step ((running 1#32 State.reset).writeLenIn 3#32) = .next t ∧ t.draws = 3) ∧
    ∃ t, step (withAction State.reset (wr 0x00 1#32)) = .next t ∧ State.reset.busy = false ∧
      t.busy = true := ⟨⟨_, if_pos test_wf_default, rfl⟩, ⟨_, if_pos test_wf_default, rfl, rfl⟩⟩

/-- The invariant holds of a unit whose command is due, and that unit's step answers a next state. -/
theorem witness_StepKeepsTheInvariant : (State.reset.withFetchWord 32 0x002).Inv ∧
    ∃ t, step (State.reset.withFetchWord 32 0x002) = .next t :=
  ⟨⟨test_wf_default, by decide, by unfold State.flagsOk; decide, fun _ => ⟨rfl, rfl, rfl, rfl⟩,
      fun h => absurd h Bool.false_ne_true, fun _ => Nat.zero_le _⟩,
    ⟨_, if_pos test_wf_default⟩⟩

theorem witness_TablesNeverChange : ∃ t, step State.reset = .next t := ⟨_, if_pos test_wf_default⟩

/-- `BUSY` set by a `CMD` write, cleared by a completion step, cleared by reset. -/
theorem witness_BusyChangesOnlyByItsThreeEvents :
    (∃ t, step (withAction State.reset (wr 0x00 1#32)) = .next t ∧ t.busy = true) ∧
    (∃ t, step (State.reset.withFetchWord 32 0x002) = .next t ∧ t.busy = false) ∧
    ∃ t, step (withAction (running 1#32 State.reset) .reset) = .next t ∧ t.busy = false :=
  ⟨⟨_, if_pos test_wf_default, rfl⟩, ⟨_, if_pos test_wf_default, rfl⟩, ⟨_, if_pos test_wf_default, rfl⟩⟩

theorem witness_OnlyTheHostChangesTheInputs :
    (∃ t, step (withAction State.reset (wr 0x08 7#32)) = .next t ∧ t.lenIn ≠ State.reset.lenIn) ∧
    ∃ t, step (withAction State.reset (wr 0x10FFC 7#32)) = .next t ∧
      Buf.read t.inBuf 1023 ≠ Buf.read State.reset.inBuf 1023 :=
  ⟨⟨_, if_pos test_wf_default, by decide⟩, ⟨_, if_pos test_wf_default, by decide⟩⟩

/-- An idle unit whose host writes an operand. -/
theorem witness_ResultsStayUntilTheNextCommandOrReset :
    (∃ t, step (withAction failed (wr 0x08 7#32)) = .next t ∧ t.busy = false) ∧
    failed.busy = false ∧ ∀ rest, ¬hostDoes (withAction failed (wr 0x08 7#32)) .reset rest :=
  ⟨⟨_, if_pos test_wf_default, rfl⟩, rfl, fun _ h => by
    have := h.2.1
    simp [withAction, State.withPending, wr] at this⟩

/-- A running command, and a host that polls and then reads. -/
theorem witness_RunningCommandComesToItsCompletion :
    ((running 1#32 State.reset).withPending [.poll, rd 0x0C]).params.wf = true ∧
    ((running 1#32 State.reset).withPending [.poll, rd 0x0C]).busy = true ∧
    HostAction.reset ∉ ((running 1#32 State.reset).withPending [.poll, rd 0x0C]).pending :=
  ⟨test_wf_default, rfl, by decide⟩

theorem witness_WrittenCommandRunsOnItsOperands :
    State.reset.busy = false ∧
    hostWrites (State.reset.withPending [wr 0x00 (encode .dec10), .poll, rd 0x0C])
      [.poll, rd 0x0C] 0x00 (encode .dec10) ∧
    ∀ a ∈ [HostAction.poll, rd 0x0C], a = .poll ∨ ∃ addr, a = .read addr :=
  ⟨rfl, ⟨busAddr 0, by decide, test_wf_default, rfl, by decide⟩, fun a h => by
    simp only [List.mem_cons, List.not_mem_nil, or_false] at h
    exact h.imp id fun e => ⟨_, e⟩⟩

end Sys2Proof.Tests
end

section
/-! PROOFS. The count of free values drawn (R17) over a completion, a host action and a whole step. -/

namespace Sys2Proof.Machine

/-- From `s` to `t` no draw is taken back, and one is used up where a command is accepted, whose latency
is drawn (R15, R17). -/
def drawsAdvance (s t : State) : Prop :=
  s.draws ≤ t.draws ∧ (s.busy = false → t.busy = true → s.draws < t.draws)

/-- Where `BUSY` is not set, it is enough that no draw is taken back. -/
theorem drawsAdvance_of_busy_not_set {s t : State} (hd : s.draws ≤ t.draws)
    (hb : t.busy = true → s.busy = true) : drawsAdvance s t :=
  ⟨hd, fun hs ht => absurd (hb ht) (by simp [hs])⟩

theorem State.finish_draws_le (s : State) (r : CmdResult) : s.draws ≤ (s.finish r).draws := by
  cases r <;> simp

/-- A completion step clears `BUSY` and takes back no draw, whatever the command computed. -/
theorem unitStep_drawsAdvance {s t : State} (h : unitStep s = .next t) : drawsAdvance s t := by
  have hc : ∃ e, s.complete e = .next t := by
    rcases unitStep_eq_complete s with ⟨i, -, e⟩ | ⟨-, e⟩ <;> exact ⟨_, e ▸ h⟩
  obtain ⟨e, hc⟩ := hc
  rcases State.complete_cases hc with ⟨-, rfl⟩ | ⟨-, r, -, rfl⟩
  · exact drawsAdvance_of_busy_not_set (by simp) (by simp)
  · obtain ⟨-, -, -, -, -, -, -, -, hbusy, -⟩ := s.finish_frame r
    exact drawsAdvance_of_busy_not_set (s.finish_draws_le r) (by simp [hbusy])

/-- Of the host's writes only an accepted `CMD` write sets `BUSY`, and it draws the latency (R235). -/
theorem State.memWrite_drawsAdvance (s : State) (off : Nat) (v : Word) :
    drawsAdvance s (s.memWrite off v) := by
  rcases s.memWrite_cases off v with e | ⟨-, e⟩ | ⟨-, e⟩ | ⟨i, -, -, -, e⟩ <;> rw [e]
  case inr.inl =>
    rcases s.acceptCommand_cases v with ⟨-, e⟩ | ⟨-, n, -, e⟩ <;> rw [e]
    · exact drawsAdvance_of_busy_not_set le_rfl id
    · exact ⟨by simp, by simp⟩
  all_goals exact drawsAdvance_of_busy_not_set le_rfl id

theorem State.hostTurn_drawsAdvance (s : State) (a : HostAction) (rest : List HostAction) :
    drawsAdvance s (s.hostTurn a rest) := by
  cases a with
  | read addr =>
    obtain ⟨v, e | e⟩ := s.hostTurn_read_cases addr rest <;> rw [e] <;>
      exact drawsAdvance_of_busy_not_set (by simp) (by simp)
  | write addr v =>
    simpa [drawsAdvance, State.hostTurn_write] using
      (s.hostTakes rest).memWrite_drawsAdvance (byteOffset addr) v
  | poll => rw [State.hostTurn_poll]; exact drawsAdvance_of_busy_not_set (by simp) (by simp)
  | pause => rw [State.hostTurn_pause]; exact drawsAdvance_of_busy_not_set (by simp) (by simp)
  | reset => rw [State.hostTurn_reset]; exact drawsAdvance_of_busy_not_set (by simp) (by simp)

theorem step_drawsAdvance {s t : State} (h : step s = .next t) : drawsAdvance s t := by
  obtain ⟨-, ⟨-, hu⟩ | ⟨a, rest, -, rfl⟩ | ⟨-, rfl⟩⟩ := step_cases h
  · exact unitStep_drawsAdvance hu
  · exact s.hostTurn_drawsAdvance a rest
  · exact drawsAdvance_of_busy_not_set le_rfl id

/-- Settles O60, by the moves of `step_cases`: the completion step and every host action advance the
draws, and an idle step changes nothing. -/
theorem drawsNeverGoBack : Obligations.DrawsNeverGoBack :=
  fun _ _ h => step_drawsAdvance h

end Sys2Proof.Machine
end

section
/-! PROOFS. Everything one step can do to the unit, as one inversion lemma; the statements about `BUSY`, the
tables and the inputs that follow from it. -/

namespace Sys2Proof.Machine

open Sys2Proof.Claims

/-! ### Whose turn it is -/

/-- The statements' word for the unit's turn is the model's schedule. -/
theorem unitDue_iff (s : State) : unitDue s ↔ s.params.wf = true ∧ s.nextMove = .unit := by
  rw [State.nextMove_unit_iff, unitDue]

/-- The statements' word for the host's turn is the model's schedule. -/
theorem hostDoes_iff (s : State) (a : HostAction) (rest : List HostAction) :
    hostDoes s a rest ↔ s.params.wf = true ∧ s.nextMove = .host a rest :=
  ⟨fun ⟨hw, hp, hd⟩ => ⟨hw, State.nextMove_of_pending hp hd⟩,
    fun ⟨hw, hm⟩ => ⟨hw, State.nextMove_host hm⟩⟩

theorem not_unitDue_of_hostDoes {s : State} {a : HostAction} {rest : List HostAction}
    (h : hostDoes s a rest) : ¬unitDue s := by
  simp [unitDue_iff, ((hostDoes_iff s a rest).1 h).2]

theorem step_of_hostDoes {s : State} {a : HostAction} {rest : List HostAction}
    (h : hostDoes s a rest) : step s = .next (s.hostTurn a rest) :=
  step_host h.1 ((hostDoes_iff s a rest).1 h).2

/-! ### What a step does -/

theorem keepsUnit_refl (s : State) : keepsUnit s s := by simp [keepsUnit, keepsRegisters]

/-- What a step can do to the unit: complete the running command (R236, R266), accept a command (R235), store
an operand (R40, R45), reset (R261), or leave every field as it was. -/
inductive StepEffect (s : State) : State → Prop
  | completesFree (due : unitDue s) (touched : s.inputsTouched = true) : StepEffect s s.finishAny
  | completes (r : CmdResult) (due : unitDue s) (untouched : s.inputsTouched = false)
      (computed : r = .err .illegalCmd ∨ ∃ i, evalOf i s = .next r) : StepEffect s (s.finish r)
  | accepts (rest : List HostAction) (v : Word) (n : Nat) (writes : hostWrites s rest 0x00000 v)
      (idle : s.busy = false) (bound : n ≤ Config.latency) :
      StepEffect s ((s.hostTakes rest).accepted v n).drawn
  | storesLenIn (rest : List HostAction) (v : Word) (writes : hostWrites s rest 0x00008 v) :
      StepEffect s ((s.hostTakes rest).writeLenIn v)
  | storesInBuf (rest : List HostAction) (i : Nat) (v : Word) (mapped : i < s.params.inDepth)
      (writes : hostWrites s rest (0x10000 + 4 * i) v) :
      StepEffect s ((s.hostTakes rest).writeInBuf i v)
  | resets (rest : List HostAction) (does : hostDoes s .reset rest) :
      StepEffect s (s.withPending rest).resetUnit
  | keeps (t : State) (notDue : ¬unitDue s) (kept : keepsUnit s t) (delay : t.delay ≤ s.delay) :
      StepEffect s t

/-- The unit's completion step writes free results or one outcome. -/
theorem unitStep_effect {s t : State} (due : unitDue s) (h : unitStep s = .next t) :
    StepEffect s t := by
  rcases unitStep_eq_complete s with ⟨i, -, e⟩ | ⟨-, e⟩ <;> rw [e] at h <;>
    rcases State.complete_cases h with ⟨ht, rfl⟩ | ⟨ht, r, hr, rfl⟩
  · exact .completesFree due ht
  · exact .completes r due ht (.inr ⟨i, hr⟩)
  · exact .completesFree due ht
  · injection hr with hr
    exact .completes r due ht (.inl hr.symm)

/-- A host write is an accepted command, a stored operand, or without effect (R85 to R87). -/
theorem write_effect {s : State} {addr : BusAddr} {v : Word} {rest : List HostAction}
    (h : hostDoes s (.write addr v) rest) : StepEffect s (s.hostTurn (.write addr v) rest) := by
  have hw : ∀ off, byteOffset addr = off → hostWrites s rest off v := fun _ ho => ⟨addr, ho, h⟩
  have quiet : StepEffect s (s.hostTakes rest) :=
    .keeps _ (not_unitDue_of_hostDoes h) (keepsUnit_refl s) (Nat.sub_le _ _)
  rw [State.hostTurn_write]
  rcases (s.hostTakes rest).memWrite_cases (byteOffset addr) v with
    e | ⟨ho, e⟩ | ⟨ho, e⟩ | ⟨i, hi, hlow, hlt, e⟩ <;> rw [e]
  · exact quiet
  · rcases (s.hostTakes rest).acceptCommand_cases v with ⟨-, e⟩ | ⟨hidle, n, hn, e⟩ <;> rw [e]
    · exact quiet
    · exact .accepts rest v n (hw _ ho) hidle hn
  · exact .storesLenIn rest v (hw _ ho)
  · exact .storesInBuf rest i v hlt (hw _ (by unfold byteOffset at *; omega))

theorem hostTurn_effect {s : State} {a : HostAction} {rest : List HostAction}
    (h : hostDoes s a rest) : StepEffect s (s.hostTurn a rest) := by
  have notDue := not_unitDue_of_hostDoes h
  cases a with
  | read addr =>
    obtain ⟨v, e | e⟩ := s.hostTurn_read_cases addr rest <;> rw [e] <;>
      exact .keeps _ notDue (keepsUnit_refl s) (Nat.sub_le _ _)
  | write addr v => exact write_effect h
  | poll =>
    rw [State.hostTurn_poll]
    exact .keeps _ notDue (keepsUnit_refl s) (Nat.sub_le _ _)
  | pause => exact .keeps _ notDue (keepsUnit_refl s) le_rfl
  | reset => exact .resets rest h

/-- Everything a step that answers a next state can do to the unit. -/
theorem step_effect {s t : State} (h : step s = .next t) : StepEffect s t := by
  obtain ⟨hw, ⟨hm, hu⟩ | ⟨a, rest, hm, rfl⟩ | ⟨hm, rfl⟩⟩ := step_cases h
  · exact unitStep_effect ((unitDue_iff s).2 ⟨hw, hm⟩) hu
  · exact hostTurn_effect ((hostDoes_iff s a rest).2 ⟨hw, hm⟩)
  · exact .keeps _ (by simp [unitDue_iff, hm]) (keepsUnit_refl _) le_rfl

/-! ### The tables, `BUSY` and the inputs -/

theorem StepEffect.params_eq {s t : State} (h : StepEffect s t) : t.params = s.params := by
  cases h with
  | completes r => exact (s.finish_frame r).1
  | keeps _ _ kept => exact kept.1.1
  | _ => rfl

/-- Settles O52: whatever the step does, it leaves `params` as they were, and the inverse tables are computed
from them. -/
theorem tablesNeverChange : Obligations.TablesNeverChange := by
  intro s t h
  have hp := (step_effect h).params_eq
  exact ⟨hp, fun d => by rw [hp]⟩

theorem State.finish_busy (s : State) (r : CmdResult) : (s.finish r).busy = false := by
  cases r <;> rfl

/-- `BUSY` goes from 0 to 1 by the host's `CMD` write alone (R37). -/
theorem StepEffect.cmd_written {s t : State} (h : StepEffect s t) (hs : s.busy = false)
    (ht : t.busy = true) : ∃ rest v, hostWrites s rest 0x00000 v := by
  cases h with
  | accepts rest v n writes => exact ⟨rest, v, writes⟩
  | completes r => simp [s.finish_busy r] at ht
  | keeps _ _ kept =>
    obtain ⟨⟨-, hb, -⟩, -⟩ := kept
    simp [hb, hs] at ht
  | _ => simp [hs] at ht

/-- `BUSY` goes from 1 to 0 by completion or reset alone (R37). -/
theorem StepEffect.completed_or_reset {s t : State} (h : StepEffect s t) (hs : s.busy = true)
    (ht : t.busy = false) : unitDue s ∨ ∃ rest, hostDoes s .reset rest := by
  cases h with
  | completesFree due => exact .inl due
  | completes _ due => exact .inl due
  | resets rest does => exact .inr ⟨rest, does⟩
  | keeps _ _ kept =>
    obtain ⟨⟨-, hb, -⟩, -⟩ := kept
    simp [hb, hs] at ht
  | _ => simp [hs] at ht

theorem StepEffect.busy_of_unitDue {s t : State} (h : StepEffect s t) (due : unitDue s) :
    t.busy = false := by
  cases h with
  | completesFree | resets => rfl
  | completes r => exact s.finish_busy r
  | keeps _ notDue => exact absurd due notDue
  | accepts _ _ _ writes | storesLenIn _ _ writes | storesInBuf _ _ _ _ writes =>
    obtain ⟨_, -, does⟩ := writes
    exact absurd due (not_unitDue_of_hostDoes does)

theorem step_reset_busy {s t : State} {rest : List HostAction} (h : hostDoes s .reset rest)
    (hstep : step s = .next t) : t.busy = false := by
  rw [step_of_hostDoes h] at hstep
  injection hstep with e
  subst e
  rfl

/-- A `CMD` write to an idle unit is accepted (R235). -/
theorem step_cmdWrite_busy {s t : State} {rest : List HostAction} {v : Word} (hs : s.busy = false)
    (h : hostWrites s rest 0x00000 v) (hstep : step s = .next t) : t.busy = true := by
  obtain ⟨addr, ho, does⟩ := h
  rw [step_of_hostDoes does, State.hostTurn_write, byteOffset, ho, State.memWrite_cmd] at hstep
  injection hstep with e
  subst e
  rcases (s.hostTakes rest).acceptCommand_cases v with ⟨hb, -⟩ | ⟨-, n, -, e⟩
  · simp [hs] at hb
  · simp [e]

/-- Settles O53: the two changes of `BUSY` by `step_effect`, and what each of the three events leaves in
it. -/
theorem busyChangesOnlyByItsThreeEvents : Obligations.BusyChangesOnlyByItsThreeEvents := by
  intro s t h
  have effect := step_effect h
  exact ⟨effect.cmd_written, effect.completed_or_reset,
    fun hs ⟨_, _, writes⟩ => step_cmdWrite_busy hs writes h,
    effect.busy_of_unitDue, fun ⟨_, does⟩ => step_reset_busy does h⟩

theorem StepEffect.lenIn_written {s t : State} (h : StepEffect s t) (hne : t.lenIn ≠ s.lenIn) :
    (∃ rest v, hostWrites s rest 0x00008 v ∧ t.lenIn = v) ∨ ∃ rest, hostDoes s .reset rest := by
  cases h with
  | storesLenIn rest v writes => exact .inl ⟨rest, v, writes, rfl⟩
  | resets rest does => exact .inr ⟨rest, does⟩
  | completes r =>
    obtain ⟨-, hl, -⟩ := s.finish_frame r
    exact absurd hl hne
  | keeps _ _ kept =>
    obtain ⟨⟨-, -, -, -, hl, -⟩, -⟩ := kept
    exact absurd hl hne
  | _ => exact absurd rfl hne

theorem StepEffect.inBuf_written {s t : State} (h : StepEffect s t) {i : Nat}
    (hne : Buf.read t.inBuf i ≠ Buf.read s.inBuf i) :
    (∃ rest v, hostWrites s rest (0x10000 + 4 * i) v ∧ Buf.read t.inBuf i = some v) ∨
      ∃ rest, hostDoes s .reset rest := by
  cases h with
  | storesInBuf rest j v mapped writes =>
    by_cases hij : i = j
    · subst hij
      exact .inl ⟨rest, v, writes, by simp⟩
    · exact absurd (Buf.read_write_other _ v hij) hne
  | resets rest does => exact .inr ⟨rest, does⟩
  | completes r =>
    obtain ⟨-, -, hb, -⟩ := s.finish_frame r
    exact absurd (by rw [hb]) hne
  | keeps _ _ kept =>
    obtain ⟨⟨-, -, -, -, -, -, -, -, hb, -⟩, -⟩ := kept
    exact absurd (by rw [hb]) hne
  | _ => exact absurd rfl hne

/-- Settles O54: of all that a step can do, only the host's writes of them and reset change `LEN_IN` and
`IN_BUF`. -/
theorem onlyTheHostChangesTheInputs : Obligations.OnlyTheHostChangesTheInputs :=
  fun _ _ h => ⟨(step_effect h).lenIn_written, fun _ => (step_effect h).inBuf_written⟩

end Sys2Proof.Machine
end

section
/-! PROOFS. What a host read of an exact location returns (R35, R36, R40, R44, R45, R84). -/

namespace Sys2Proof.Machine

open Sys2Proof.Claims

/-- A read that draws no free value answers the value it reads and changes nothing of the unit. -/
theorem readGives_of_memRead {s : State} {rest : List HostAction} {off : Nat} {v : Word}
    (h : hostReads s rest off)
    (hr : (s.hostTakes rest).memRead off = (v, s.hostTakes rest)) : readGives s rest off v := by
  obtain ⟨addr, ho, does⟩ := h
  refine ⟨(s.hostTakes rest).reply off v, ?_, rfl, keepsUnit_refl s, ⟨rfl, rfl⟩, rfl⟩
  rw [step_of_hostDoes does, State.hostTurn, byteOffset, ho, State.busRead, hr]

/-- `STATUS` as read is the sum of its fields (R36). -/
theorem State.statusWord_eq (s : State) :
    s.statusWord = BitVec.ofNat 32 (s.busy.toNat + 2 * s.done.toNat + 16 * errNumber s.err) := by
  unfold State.statusWord
  cases s.busy <;> cases s.done <;> cases s.err <;> rfl

theorem State.readInBuf_written {s : State} {i : Nat} {v : Word} (h : Buf.read s.inBuf i = some v) :
    s.readInBuf i = (v, s) := by
  simp [State.readInBuf, h]

/-- Settles O40: each location's read returns the stored value and the state as it was, idle or busy. -/
theorem registersReadAsStored : Obligations.RegistersReadAsStored := by
  intro s rest off h
  refine ⟨?_, ?_, ?_, ?_, ?_, ?_⟩
  · rintro rfl
    exact readGives_of_memRead h (State.memRead_cmd _)
  · rintro rfl
    rw [← State.statusWord_eq]
    exact readGives_of_memRead h (State.memRead_status _)
  · rintro rfl
    exact readGives_of_memRead h (State.memRead_lenIn _)
  · rintro rfl
    exact readGives_of_memRead h (State.memRead_inDepth _)
  · rintro rfl
    exact readGives_of_memRead h (State.memRead_outDepth _)
  · rintro i v hi rfl hv
    exact readGives_of_memRead h <|
      (State.memRead_inBuf (s := s.hostTakes rest) hi).trans (State.readInBuf_written hv)

end Sys2Proof.Machine
end

section
/-! PROOFS. What a command computes, by three conditions: the operands do not fit, `ENCW` is refused as
over-long, or the entries it reads decide. -/

namespace Sys2Proof.Machine

open Sys2Proof.Claims

/-- What the command makes of the entries it reads (R149, R150, R192, R197, R213, R217). -/
def outcomeOf (i : Instr) (p : Params) : List Word → CmdResult :=
  match i.op with
  | .enc => encodeResult p i.dialect
  | .encw => encodeWordResult p i.dialect
  | .dec => decodeResult p i.dialect
  | .decw => decodeWordResult p i.dialect
  | .alpha => fun _ => .ok ((List.finRange 40).map fun g => codeEntry (p.charOf i.dialect g))
  | .lookup => lookupResult p i.dialect

/-- An `ENCW` of more than `N` characters in a unit built to refuse it (U1). -/
def overlongRefused (i : Instr) (s : State) : Prop :=
  i.op = .encw ∧ i.dialect.chars < s.len ∧ s.params.overlong = .refuse

/-- A misfit is an error before any entry is read (R232, R233). -/
theorem evalOf_misfit {i : Instr} {s : State} (h : lengthMisfit i s) :
    evalOf i s = .next (.err .length) := by
  unfold lengthMisfit at h
  unfold evalOf
  cases hop : i.op <;> simp only [hop] at h
  case enc => exact (ite_or ..).symm.trans (if_pos h)
  case encw => exact if_pos h
  case dec => exact (ite_or ..).symm.trans (if_pos h)
  case decw => exact if_pos (.inr h)
  case lookup => exact if_pos (.inr h)

theorem evalOf_overlong {i : Instr} {s : State} (hfit : ¬lengthMisfit i s)
    (h : overlongRefused i s) : evalOf i s = .refused .encwOverlong := by
  obtain ⟨hop, hlong⟩ := h
  simp only [lengthMisfit, hop] at hfit
  simp only [evalOf, hop]
  exact (if_neg hfit).trans (if_pos hlong)

/-- Operands that fit: the command reads its entries, and they decide. -/
theorem evalOf_reads {i : Instr} {s : State} (hw : s.params.wf = true) (hfit : ¬lengthMisfit i s)
    (hlong : ¬overlongRefused i s) :
    evalOf i s = s.withInputs (readCount i s) (outcomeOf i s.params) := by
  have one_fits : s.len = 1 → ¬(s.params.inDepth < s.len ∨ s.len ≠ 1) := by
    have := (Params.wf_depths hw).1
    omega
  unfold lengthMisfit at hfit
  unfold evalOf readCount outcomeOf
  cases hop : i.op <;> simp only [hop, not_or, not_not] at hfit
  case enc => exact (if_neg hfit.1).trans (if_neg hfit.2)
  case encw => exact (if_neg hfit).trans (if_neg fun h => hlong ⟨hop, h⟩)
  case dec => exact (if_neg hfit.1).trans (if_neg hfit.2)
  case decw => exact if_neg (one_fits hfit)
  case alpha => rfl
  case lookup => exact if_neg (one_fits hfit)

theorem State.withInputs_fault {s : State} {n j : Nat} (f : List Word → CmdResult) (hj : j < n)
    (hnone : Buf.read s.inBuf j = none)
    (hbefore : ∀ k, k < j → (Buf.read s.inBuf k).isSome = true) :
    s.withInputs n f = .fault (.unwrittenInput j) := by
  have : Buf.readFrom s.inBuf 0 n = .error j :=
    (Buf.readFrom_error_iff _ _ _ _).2 ⟨Nat.zero_le j, by omega, hnone, fun k _ => hbefore k⟩
  simp [State.withInputs, this]

/-- Settles O25: with operands that fit, the command's outcome is what it makes of the entries it reads, and
reading them stops at the first that holds no value. -/
theorem unwrittenInputIsAFault : Obligations.UnwrittenInputIsAFault := by
  intro i s j hw ht hfit hshort hj hnone hbefore
  have hlong : ¬overlongRefused i s := by
    rintro ⟨hop, hlt, href⟩
    rcases hshort hop with hle | htrunc
    · omega
    · simp [href] at htrunc
  rw [exec_eq_complete, evalOf_reads hw hfit hlong, State.withInputs_fault _ hj hnone hbefore,
    State.complete_fault _ ht]

end Sys2Proof.Machine
end

section
/-! PROOFS. How many words and characters the codec gives, and where it reports an illegal character. -/

namespace Sys2Proof

/-- A failed lookup records the character and the position as given (R147, R148). -/
theorem lookup_error {p : Params} {d : Dialect} {c : Word} {pos : Nat} {e : IllegalChar}
    (h : lookup p d c pos = .error e) : e = { char := c, pos := pos } := by
  unfold lookup at h
  split at h
  · injection h with h
    exact h.symm
  · split at h
    · injection h with h
      exact h.symm
    · cases h

/-- The space is in every well-formed table, as digit 0 (R142). -/
theorem lookup_padChar {p : Params} (h : p.wf = true) (d : Dialect) (pos : Nat) :
    lookup p d padChar pos = .ok 0 := by
  obtain ⟨hl, hn, -, h0⟩ := Params.wf_alphabet h d
  have hinv : (p.inverse d).getD padChar.toNat none = some 0 :=
    (invert_getD_eq_some_iff hl hn _ 0).2 ⟨_, h0, rfl⟩
  rw [lookup, if_neg (by decide), hinv]

/-- A list with an error has it at one of its entries, whose own lookup fails so (R191). -/
theorem lookupAll_error_cases {p : Params} {d : Dialect} {cs : List Word} {pos : Nat}
    {e : IllegalChar} (h : lookupAll p d pos cs = .error e) :
    ∃ k c, cs[k]? = some c ∧ lookup p d c (pos + k) = .error e := by
  induction cs generalizing pos with
  | nil => cases h
  | cons c cs ih =>
    rw [lookupAll] at h
    cases hc : lookup p d c pos with
    | error e' =>
      rw [hc] at h
      injection h with h
      exact ⟨0, c, rfl, h ▸ hc⟩
    | ok g =>
      rw [hc] at h
      cases hcs : lookupAll p d (pos + 1) cs with
      | ok gs => simp [hcs] at h
      | error e' =>
        simp only [hcs] at h
        injection h with h
        obtain ⟨k, b, hk, hb⟩ := ih (h ▸ hcs)
        exact ⟨k + 1, b, by simpa using hk, by rw [← hb]; congr 1; omega⟩

/-- The error of a chunk is at a character of the chunk, never at a padding space (R190, R191). -/
theorem encodeWord_error_pos {p : Params} {d : Dialect} {chunk : List Word} {e : IllegalChar}
    (hw : p.wf = true) (h : encodeWord p d chunk = .error e) :
    1 ≤ e.pos ∧ e.pos ≤ chunk.length := by
  have hall : lookupAll p d 1 (padded d chunk) = .error e := by
    unfold encodeWord at h
    split at h
    · next he => injection h with h; exact h ▸ he
    · cases h
  obtain ⟨k, c, hk, hc⟩ := lookupAll_error_cases hall
  have hlt : k < d.chars := by
    simpa using (List.getElem?_eq_some_iff.1 hk).1
  rw [padded_getElem? d chunk hlt] at hk
  injection hk with hk
  have hin : k < chunk.length := by
    by_contra hout
    have hpad : c = padChar := by
      rw [← hk]
      simp [List.getD, Nat.le_of_not_lt hout]
    rw [hpad, lookup_padChar hw] at hc
    cases hc
  rw [lookup_error hc]
  exact ⟨by simp, by simp; omega⟩

theorem chunkAt_length_le (d : Dialect) (s : List Word) (i : Nat) :
    (chunkAt d s i).length ≤ s.length - i * d.chars := by
  simp [chunkAt]

/-- The error of a string's chunks is at a character of the string (R212). -/
theorem encodeChunks_error_pos {p : Params} {d : Dialect} {s : List Word} {i n : Nat}
    {e : IllegalChar} (hw : p.wf = true) (h : encodeChunks p d s i n = .error e) :
    1 ≤ e.pos ∧ e.pos ≤ s.length := by
  induction n generalizing i with
  | zero => cases h
  | succ n ih =>
    rw [encodeChunks] at h
    cases hc : encodeWord p d (chunkAt d s i) with
    | error e' =>
      rw [hc] at h
      injection h with h
      subst h
      obtain ⟨h1, h2⟩ := encodeWord_error_pos hw hc
      have := chunkAt_length_le d s i
      exact ⟨by simp; omega, by simp; omega⟩
    | ok w =>
      rw [hc] at h
      cases hr : encodeChunks p d s (i + 1) n with
      | ok ws => simp [hr] at h
      | error e' =>
        simp only [hr] at h
        injection h with h
        exact ih (h ▸ hr)

/-- Each chunk gives one word (R211). -/
theorem encodeChunks_length {p : Params} {d : Dialect} {s : List Word} {i n : Nat}
    {ws : List (BitVec d.width)} (h : encodeChunks p d s i n = .ok ws) : ws.length = n := by
  induction n generalizing i ws with
  | zero => injection h with h; simp [← h]
  | succ n ih =>
    rw [encodeChunks] at h
    cases hc : encodeWord p d (chunkAt d s i) with
    | error e => simp [hc] at h
    | ok w =>
      rw [hc] at h
      cases hr : encodeChunks p d s (i + 1) n with
      | error e => simp [hr] at h
      | ok ws' =>
        simp only [hr] at h
        injection h with h
        simp [← h, ih hr]

@[simp] theorem decodeWord_length (p : Params) (d : Dialect) (v : BitVec d.width) :
    (decodeWord p d v).length = d.chars := by
  simp [decodeWord, unpack]

theorem decodeString_length (p : Params) (d : Dialect) (ws : List (BitVec d.width)) :
    (decodeString p d ws).length = ws.length * d.chars := by
  simp [decodeString, List.length_flatMap]

theorem Dialect.chars_le (d : Dialect) : d.chars ≤ 6 := by cases d <;> decide

end Sys2Proof
end

section
/-! PROOFS. Every outcome of a command fits the unit: its outputs fit `OUT_BUF`, its error position is one of
`IN_BUF`'s. -/

namespace Sys2Proof.Machine

open Sys2Proof.Claims

/-- The outcome fits a unit of these sizes (R41, R43): as many outputs as `OUT_BUF` holds, or an error
whose position, if it has one, is from 1 to `IN_DEPTH`. -/
def CmdResult.fits (p : Params) : CmdResult → Prop
  | .ok out => out.length ≤ p.outDepth
  | .err (.illegalChar _ pos) => 1 ≤ pos ∧ pos ≤ p.inDepth
  | .err .illegalCmd => True
  | .err .length => True

theorem encodeResult_fits {p : Params} {d : Dialect} {cs : List Word} (hw : p.wf = true)
    (hin : cs.length ≤ p.inDepth) (hout : ceilDiv cs.length d.chars ≤ p.outDepth) :
    (encodeResult p d cs).fits p := by
  unfold encodeResult
  split
  · next e he =>
    obtain ⟨h1, h2⟩ := encodeChunks_error_pos hw he
    exact ⟨h1, h2.trans hin⟩
  · next ws hws =>
    simpa [CmdResult.fits, encodeChunks_length hws] using hout

theorem encodeWordResult_fits {p : Params} {d : Dialect} {cs : List Word} (hw : p.wf = true)
    (hin : cs.length ≤ p.inDepth) : (encodeWordResult p d cs).fits p := by
  unfold encodeWordResult
  split
  · next e he =>
    obtain ⟨h1, h2⟩ := encodeWord_error_pos hw he
    exact ⟨h1, h2.trans hin⟩
  · have := (Params.wf_depths hw).2.2.1
    simp [CmdResult.fits]
    omega

theorem lookupResult_fits {p : Params} (d : Dialect) (cs : List Word) (hw : p.wf = true) :
    (lookupResult p d cs).fits p := by
  obtain ⟨hin, -, hout, -⟩ := Params.wf_depths hw
  unfold lookupResult
  split
  · next e he =>
    rw [lookup_error he]
    exact ⟨le_rfl, hin⟩
  · exact le_trans (by simp) hout

/-- The entries a command reads give an outcome that fits. -/
theorem outcomeOf_fits {i : Instr} {s : State} {ws : List Word} (hw : s.params.wf = true)
    (hfit : ¬lengthMisfit i s) (hl : ws.length = readCount i s) :
    (outcomeOf i s.params ws).fits s.params := by
  have hout := (Params.wf_depths hw).2.2.1
  have hN := i.dialect.chars_le
  unfold lengthMisfit at hfit
  unfold readCount at hl
  unfold outcomeOf
  cases hop : i.op <;> simp only [hop, not_or, not_lt] at hfit hl ⊢
  case enc => exact encodeResult_fits hw (hl ▸ hfit.1) (hl ▸ hfit.2)
  case encw => exact encodeWordResult_fits hw (by omega)
  case dec => simpa [CmdResult.fits, decodeResult, decodeString_length, hl] using hfit.2
  case decw => simp only [CmdResult.fits, decodeWordResult, List.length_map, decodeWord_length]; omega
  case alpha => simpa [CmdResult.fits] using hout
  case lookup => exact lookupResult_fits _ _ hw

/-- Every outcome of a command fits the unit. -/
theorem evalOf_fits {i : Instr} {s : State} {r : CmdResult} (hw : s.params.wf = true)
    (h : evalOf i s = .next r) : r.fits s.params := by
  by_cases hfit : lengthMisfit i s
  · rw [evalOf_misfit hfit] at h
    injection h with h
    simp [← h, CmdResult.fits]
  by_cases hlong : overlongRefused i s
  · rw [evalOf_overlong hfit hlong] at h
    cases h
  rw [evalOf_reads hw hfit hlong] at h
  obtain ⟨ws, hl, -, rfl⟩ := State.withInputs_cases h
  exact outcomeOf_fits hw hfit hl

end Sys2Proof.Machine
end

section
/-! PROOFS. The invariant of the machine (R15, R38, R41 to R43, R45, R46) over everything a step can do. -/

namespace Sys2Proof.Machine

open Sys2Proof.Claims

theorem State.memoryWf_iff (s : State) :
    s.memoryWf = true ↔
      Buf.wf s.params.inDepth s.inBuf = true ∧ Buf.wf s.params.outDepth s.outBuf = true := by
  simp [State.memoryWf]

/-! ### Completion -/

/-- While no command runs, `BUSY` and `DONE` are not both 1 and no delay is bounded. -/
theorem State.inv_of_completed {s : State} (hw : s.params.wf = true) (hm : s.memoryWf = true)
    (hb : s.busy = false) (hd : s.done = true) (hr : s.resultsOk) : s.Inv :=
  ⟨hw, hm, fun h => by simp [hb] at h, fun h => by simp [hd] at h, hr, fun h => by simp [hb] at h⟩

/-- Outputs that fit are the entries of `LEN_OUT` (R41, R46). -/
theorem State.finishOk_successOk {s : State} {out : List Word} (hw : s.params.wf = true)
    (hfit : out.length ≤ s.params.outDepth) : (s.finishOk out).successOk := by
  have hdepth := (Params.wf_depths hw).2.2.2
  have hlen : (s.finishOk out).lenOut.toNat = out.length := by
    simp only [State.finishOk_lenOut, BitVec.toNat_ofNat]
    omega
  refine ⟨hlen.trans_le hfit, rfl, rfl, fun j hj => ?_⟩
  rw [hlen] at hj
  have hread := Buf.read_writeFrom_inside s.outBuf out 0 j hj
  rw [Nat.zero_add] at hread
  simp [hread]

theorem State.finishOk_inv {s : State} {out : List Word} (hs : s.Inv)
    (hfit : out.length ≤ s.params.outDepth) : (s.finishOk out).Inv := by
  obtain ⟨hw, hm, -⟩ := hs
  obtain ⟨hin, hout⟩ := s.memoryWf_iff.1 hm
  refine State.inv_of_completed hw ?_ rfl rfl fun _ _ =>
    ⟨fun _ => State.finishOk_successOk hw hfit, fun h => absurd rfl h⟩
  exact (State.memoryWf_iff _).2 ⟨hin, Buf.wf_writeFrom out hout ((Nat.zero_add _).trans_le hfit)⟩

/-- An error that fits is recorded with a position of `IN_BUF`, or with none (R42, R43). -/
theorem State.finishErr_errorOk {s : State} {e : CmdError} (hw : s.params.wf = true)
    (hfit : (CmdResult.err e).fits s.params) : (s.finishErr e).errorOk := by
  refine ⟨rfl, ?_⟩
  cases e with
  | illegalChar c pos =>
    have hdepth := (Params.wf_depths hw).2.1
    obtain ⟨h1, h2⟩ := hfit
    have hpos : (BitVec.ofNat 32 pos).toNat = pos := by
      rw [BitVec.toNat_ofNat]
      omega
    exact ⟨fun _ => by simpa [CmdError.errPos, hpos] using ⟨h1, h2⟩, fun h => absurd rfl h⟩
  | illegalCmd | length => exact ⟨nofun, fun _ => ⟨rfl, rfl⟩⟩

theorem CmdError.errCode_ne_none (e : CmdError) : e.errCode ≠ .none := by
  cases e <;> nofun

theorem State.finishErr_inv {s : State} {e : CmdError} (hs : s.Inv)
    (hfit : (CmdResult.err e).fits s.params) : (s.finishErr e).Inv := by
  obtain ⟨hw, hm, -⟩ := hs
  refine State.inv_of_completed hw ?_ rfl rfl fun _ _ =>
    ⟨fun h => absurd h e.errCode_ne_none, fun _ => State.finishErr_errorOk hw hfit⟩
  exact (State.memoryWf_iff _).2 ⟨(s.memoryWf_iff.1 hm).1, Buf.wf_nil _⟩

theorem State.finish_inv {s : State} {r : CmdResult} (hs : s.Inv) (hfit : r.fits s.params) :
    (s.finish r).Inv := by
  cases r with
  | ok out => exact State.finishOk_inv hs hfit
  | err e => exact State.finishErr_inv hs hfit

/-- The invariant says nothing of the results of a command whose inputs were written meanwhile (R266). -/
theorem State.finishAny_inv {s : State} (hs : s.Inv) (ht : s.inputsTouched = true) :
    s.finishAny.Inv := by
  obtain ⟨hw, hm, -⟩ := hs
  refine State.inv_of_completed hw ?_ rfl rfl fun _ hu => ?_
  · exact (State.memoryWf_iff _).2 ⟨(s.memoryWf_iff.1 hm).1, Buf.wf_nil _⟩
  · simp [ht] at hu

/-! ### Host actions -/

/-- Where no result changes and no mark of R266 is taken back, the results stay as R41 to R43 say. -/
theorem State.resultsOk_of_results_eq {s : State} (hs : s.Inv) {t : State}
    (h : t.inputsTouched = false → s.inputsTouched = false)
    (hp : t.params = s.params) (hd : t.done = s.done) (he : t.err = s.err)
    (hlo : t.lenOut = s.lenOut) (hec : t.errChar = s.errChar) (hep : t.errPos = s.errPos)
    (hout : t.outBuf = s.outBuf) : t.resultsOk := by
  obtain ⟨-, -, -, -, hr, -⟩ := hs
  intro hdone htouched
  simpa [State.successOk, State.errorOk, hp, he, hlo, hec, hep, hout] using
    hr (hd ▸ hdone) (h htouched)

/-- The invariant speaks of the unit's fields and of the delay's bound alone. -/
theorem State.Inv.of_keepsUnit {s t : State} (hs : s.Inv) (h : keepsUnit s t)
    (hdelay : t.delay ≤ s.delay) : t.Inv := by
  obtain ⟨⟨hp, hb, hd, he, -, hlo, hec, hep, hin, hout, -, -⟩, ht⟩ := h
  have hres : t.resultsOk :=
    State.resultsOk_of_results_eq hs (fun hu => ht ▸ hu) hp hd he hlo hec hep hout
  obtain ⟨hw, hm, hf, hc, -, hl⟩ := hs
  refine ⟨hp ▸ hw, ?_, ?_, ?_, hres, fun hbusy => hdelay.trans (hl (hb ▸ hbusy))⟩
  · simpa [State.memoryWf, hp, hin, hout] using hm
  · simpa [State.flagsOk, hb, hd] using hf
  · simpa [State.clearedOk, hd, he, hlo, hec, hep] using hc

theorem State.hostTakes_inv {s : State} (hs : s.Inv) (rest : List HostAction) :
    (s.hostTakes rest).Inv :=
  hs.of_keepsUnit (keepsUnit_refl s) (Nat.sub_le _ _)

/-- An accepted command has cleared the results, and its delay is drawn within `LATENCY` (R15, R235). -/
theorem State.accepted_inv {s : State} (hs : s.Inv) (v : Word) {n : Nat} (hn : n ≤ Config.latency) :
    (s.accepted v n).drawn.Inv := by
  obtain ⟨hw, hm, -⟩ := hs
  exact ⟨hw, hm, fun h => by simp at h, fun _ => ⟨rfl, rfl, rfl, rfl⟩, fun h => by simp at h,
    fun _ => hn⟩

theorem State.writeLenIn_inv {s : State} (hs : s.Inv) (v : Word) : (s.writeLenIn v).Inv := by
  have hres : (s.writeLenIn v).resultsOk :=
    State.resultsOk_of_results_eq hs (fun h => (Bool.or_eq_false_iff.1 h).1) rfl rfl rfl rfl rfl rfl rfl
  obtain ⟨hw, hm, hf, hc, -, hl⟩ := hs
  exact ⟨hw, hm, hf, hc, hres, hl⟩

theorem State.writeInBuf_inv {s : State} (hs : s.Inv) {i : Nat} (v : Word)
    (hi : i < s.params.inDepth) : (s.writeInBuf i v).Inv := by
  have hres : (s.writeInBuf i v).resultsOk :=
    State.resultsOk_of_results_eq hs (fun h => (Bool.or_eq_false_iff.1 h).1) rfl rfl rfl rfl rfl rfl rfl
  obtain ⟨hw, hm, hf, hc, -, hl⟩ := hs
  obtain ⟨hin, hout⟩ := s.memoryWf_iff.1 hm
  exact ⟨hw, (State.memoryWf_iff _).2 ⟨Buf.wf_write v hin hi, hout⟩, hf, hc, hres, hl⟩

theorem State.resetUnit_inv {s : State} (hw : s.params.wf = true) : s.resetUnit.Inv :=
  ⟨hw, rfl, fun h => by simp at h, fun _ => ⟨rfl, rfl, rfl, rfl⟩, fun h => by simp at h,
    fun h => by simp at h⟩

/-- Whatever a step does to the unit keeps the invariant. -/
theorem StepEffect.keeps_inv {s t : State} (h : StepEffect s t) (hs : s.Inv) : t.Inv := by
  cases h with
  | completesFree _ touched => exact State.finishAny_inv hs touched
  | completes r _ _ computed =>
    refine State.finish_inv hs ?_
    rcases computed with rfl | ⟨i, hr⟩
    · trivial
    · exact evalOf_fits hs.1 hr
  | accepts rest v n _ _ bound => exact State.accepted_inv (State.hostTakes_inv hs rest) v bound
  | storesLenIn rest v => exact State.writeLenIn_inv (State.hostTakes_inv hs rest) v
  | storesInBuf rest i v mapped => exact State.writeInBuf_inv (State.hostTakes_inv hs rest) v mapped
  | resets rest => exact State.resetUnit_inv hs.1
  | keeps _ _ kept delay => exact hs.of_keepsUnit kept delay

/-- Settles O51: `step_effect` says all that a step can do, and each of it keeps the invariant; a completion
does because every outcome of a command fits the unit. -/
theorem stepKeepsTheInvariant : Obligations.StepKeepsTheInvariant :=
  fun _ _ hs h => (step_effect h).keeps_inv hs

end Sys2Proof.Machine
end

section
/-! PROOFS. The byte order of a serialised word stream (R80). -/

namespace Sys2Proof

@[simp] theorem serializeWord_length (d : Dialect) (w : BitVec d.width) :
    (serializeWord d w).length = d.width / 8 := by
  simp [serializeWord]

/-- The bytes of a PDP-11 word, written out. -/
theorem serializeWord_pdp11 (w : BitVec (Dialect.width .pdp11)) :
    serializeWord .pdp11 w = [BitVec.ofNat 8 (w.toNat / 2 ^ 8), BitVec.ofNat 8 (w.toNat / 2 ^ 0)] := rfl

/-- The bytes of a PDP-10 word, written out. -/
theorem serializeWord_pdp10 (w : BitVec (Dialect.width .pdp10)) :
    serializeWord .pdp10 w = [BitVec.ofNat 8 (w.toNat / 2 ^ 24), BitVec.ofNat 8 (w.toNat / 2 ^ 16),
      BitVec.ofNat 8 (w.toNat / 2 ^ 8), BitVec.ofNat 8 (w.toNat / 2 ^ 0)] := rfl

/-- The bytes of a word, read as the digits of a number in base 256, give the word. -/
theorem serializeWord_value (d : Dialect) (w : BitVec d.width) :
    (serializeWord d w).foldl (fun a b => a * 256 + b.toNat) 0 = w.toNat := by
  have hlt := w.isLt
  cases d with
  | pdp11 =>
    rw [serializeWord_pdp11]
    simp only [Dialect.width, List.foldl_cons, List.foldl_nil, BitVec.toNat_ofNat] at hlt ⊢
    omega
  | pdp10 =>
    rw [serializeWord_pdp10]
    simp only [Dialect.width, List.foldl_cons, List.foldl_nil, BitVec.toNat_ofNat] at hlt ⊢
    omega

/-- Settles O35: a word's bytes are its base-256 digits, highest first, and a stream is serialised word by
word. -/
theorem serialisationIsBigEndian : Obligations.SerialisationIsBigEndian :=
  fun d w _ => ⟨serializeWord_length d w, serializeWord_value d w, List.flatMap_cons, List.flatMap_nil⟩

end Sys2Proof
end

section
/-! PROOFS. Host writes (R40, R45, R85 to R87) and the reads that draw a free value (R45, R46, R84, R86, R90). -/

namespace Sys2Proof.Machine

open Sys2Proof.Claims

/-! ### Writes -/

theorem step_of_hostWrites {s : State} {rest : List HostAction} {off : Nat} {v : Word}
    (h : hostWrites s rest off v) : step s = .next ((s.hostTakes rest).memWrite off v) := by
  obtain ⟨addr, ho, does⟩ := h
  rw [step_of_hostDoes does, State.hostTurn_write, byteOffset, ho]

theorem hostWrites_wf {s : State} {rest : List HostAction} {off : Nat} {v : Word}
    (h : hostWrites s rest off v) : s.params.wf = true := by
  obtain ⟨_, -, does⟩ := h
  exact does.1

/-- A write that the register map drops only takes up the host's action. -/
theorem hasNoEffect_of_memWrite {s : State} {rest : List HostAction} {off : Nat} {v : Word}
    (h : hostWrites s rest off v)
    (hw : (s.hostTakes rest).memWrite off v = s.hostTakes rest) : hasNoEffect s rest :=
  ⟨s.hostTakes rest, hw ▸ step_of_hostWrites h, keepsUnit_refl s, ⟨rfl, rfl⟩, ⟨rfl, rfl⟩⟩

theorem State.writeLenIn_keepsUnit {s : State} (hidle : s.busy = false) (rest : List HostAction)
    (v : Word) : keepsUnit (s.withLenIn v) ((s.hostTakes rest).writeLenIn v) := by
  simp [keepsUnit, keepsRegisters, hidle]

theorem State.writeInBuf_keepsUnit {s : State} (hidle : s.busy = false) (rest : List HostAction)
    (i : Nat) (v : Word) :
    keepsUnit (s.withInBuf (Buf.write s.inBuf i v)) ((s.hostTakes rest).writeInBuf i v) := by
  simp [keepsUnit, keepsRegisters, hidle]

/-- Settles O37: the write of an operand, the mark of R266 not being set while no command runs. -/
theorem operandWriteStoresTheValue : Obligations.OperandWriteStoresTheValue := by
  intro s rest v hidle
  refine ⟨fun h => ?_, fun i hi h => ?_⟩
  · exact ⟨_, State.memWrite_lenIn _ v ▸ step_of_hostWrites h, State.writeLenIn_keepsUnit hidle rest v,
      ⟨rfl, rfl⟩, ⟨rfl, rfl⟩⟩
  · have hw := State.memWrite_inBuf (s := s.hostTakes rest) v hi
    exact ⟨_, hw ▸ step_of_hostWrites h, State.writeInBuf_keepsUnit hidle rest i v, ⟨rfl, rfl⟩,
      ⟨rfl, rfl⟩, Buf.read_write_same _ i v, fun j hj => Buf.read_write_other _ v hj⟩

/-- No location that takes a write is read-only: the windows do not overlap (R13, R87). -/
theorem State.memWrite_readOnly {s : State} {off : Nat} (v : Word) (hw : s.params.wf = true)
    (h : readOnlyOffset s.params off) : s.memWrite off v = s := by
  have hdepth := (Params.wf_depths hw).2.1
  unfold readOnlyOffset at h
  rcases s.memWrite_cases off v with e | ⟨ho, -⟩ | ⟨ho, -⟩ | ⟨i, ho, hlow, hi, -⟩
  · exact e
  all_goals omega

/-- Settles O38: the register map drops a write to a read-only location. -/
theorem readOnlyWriteHasNoEffect : Obligations.ReadOnlyWriteHasNoEffect := by
  intro s rest off v h hro
  have hw : (s.hostTakes rest).params.wf = true := by simpa using hostWrites_wf h
  exact hasNoEffect_of_memWrite h (State.memWrite_readOnly v hw hro)

/-! ### Reads -/

/-- A read that draws a free value answers that value and changes nothing of the unit. -/
theorem readGivesFree_of_memRead {s : State} {rest : List HostAction} {off : Nat}
    (h : hostReads s rest off)
    (hr : (s.hostTakes rest).memRead off = (s.hostTakes rest).anyWord) :
    readGivesFree s rest off := by
  obtain ⟨addr, ho, does⟩ := h
  refine ⟨(s.hostTakes rest).drawn.reply off (Config.freeWord s.draws), ?_, rfl, keepsUnit_refl s,
    ⟨rfl, rfl⟩, rfl⟩
  rw [step_of_hostDoes does, State.hostTurn, byteOffset, ho, State.busRead, hr]
  rfl

theorem hostReads_wf {s : State} {rest : List HostAction} {off : Nat} (h : hostReads s rest off) :
    s.params.wf = true := by
  obtain ⟨_, -, does⟩ := h
  exact does.1

/-- Settles O43: a read draws one free value or none, and writes no field of the unit. -/
theorem readsHaveNoSideEffect : Obligations.ReadsHaveNoSideEffect := by
  intro s rest off h
  rcases (s.hostTakes rest).memRead_cases off with hr | ⟨v, hr⟩
  · exact .inl (readGivesFree_of_memRead h hr)
  · exact .inr ⟨v, readGives_of_memRead h hr⟩

theorem target_of_not_mappedOffset {p : Params} {off : Nat} (h : ¬mappedOffset p off) :
    target p off = .unmapped := by
  unfold mappedOffset at h
  rcases target_cases p off with
    ⟨ho, -⟩ | ⟨ho, -⟩ | ⟨ho, -⟩ | ⟨ho, -⟩ | ⟨ho, -⟩ | ⟨ho, -⟩ | ⟨ho, -⟩ | ⟨ho, -⟩ |
      ⟨i, ho, hlow, hi, -⟩ | ⟨i, ho, hlow, hi, -⟩ | e
  case inr.inr.inr.inr.inr.inr.inr.inr.inr.inr => exact e
  all_goals omega

/-- Settles O39: the register map names nothing at such an offset. -/
theorem unmappedOffsetsReadZeroAndTakeNoWrite : Obligations.UnmappedOffsetsReadZeroAndTakeNoWrite := by
  intro s rest off hoff
  have ht : target (s.hostTakes rest).params off = .unmapped := target_of_not_mappedOffset hoff
  exact ⟨fun h => readGives_of_memRead h (State.memRead_unmapped ht),
    fun v h => hasNoEffect_of_memWrite h (State.memWrite_unmapped v ht)⟩

theorem State.readInBuf_unwritten {s : State} {i : Nat} (h : Buf.read s.inBuf i = none) :
    s.readInBuf i = s.anyWord := by
  simp [State.readInBuf, h]

theorem State.readOutBuf_unwritten {s : State} {i : Nat} (hidle : s.busy = false)
    (h : Buf.read s.outBuf i = none) (hd : s.outDraw = none) : s.readOutBuf i = s.anyWord := by
  simp [State.readOutBuf, State.readOutBufIdle, hidle, h, hd]

/-- After an error an entry holds the free value drawn for it (R46, R236). -/
theorem State.readOutBuf_freed {s : State} {i k : Nat} (hidle : s.busy = false)
    (h : Buf.read s.outBuf i = none) (hd : s.outDraw = some k) :
    s.readOutBuf i = (Config.freeOutEntry k i, s) := by
  simp [State.readOutBuf, State.readOutBufIdle, hidle, h, hd]

/-- A host read of a mapped `OUT_BUF` entry reaches that entry. -/
theorem memRead_outBuf_of_hostReads {s : State} {rest : List HostAction} {off i : Nat}
    (h : hostReads s rest off) (hi : i < s.params.outDepth) :
    (s.hostTakes rest).memRead (0x20000 + 4 * i) = (s.hostTakes rest).readOutBuf i :=
  State.memRead_outBuf (Params.wf_depths (hostReads_wf h)).2.1 hi

/-- Settles O42: what each window reads as where its entry holds no value. -/
theorem entriesWithoutAValueReadFree : Obligations.EntriesWithoutAValueReadFree := by
  intro s rest i
  refine ⟨fun h hi hn => ?_, fun h hi hidle hn hd => ?_, fun k h hi hidle hn hd => ?_⟩
  · exact readGivesFree_of_memRead h <|
      (State.memRead_inBuf (s := s.hostTakes rest) hi).trans (State.readInBuf_unwritten hn)
  · exact readGivesFree_of_memRead h <|
      (memRead_outBuf_of_hostReads h hi).trans (State.readOutBuf_unwritten hidle hn hd)
  · exact readGives_of_memRead h <|
      (memRead_outBuf_of_hostReads h hi).trans (State.readOutBuf_freed hidle hn hd)

end Sys2Proof.Machine
end

section
/-! PROOFS. How a running command comes to its completion step (R15, R94, R235, R270), by one induction on the
delay. -/

namespace Sys2Proof.Machine

open Sys2Proof.Claims

/-! ### The unit's turn -/

/-- The command word of each command decodes to it (R113). -/
@[simp] theorem decode_encode (i : Instr) : decode (encode i) = .ok i := by
  cases i <;> decide

theorem step_of_unitDue {s : State} {i : Instr} (due : unitDue s) (hd : decode s.curCmd = .ok i) :
    step s = exec i s := by
  rw [step_unit due.1 ((unitDue_iff s).1 due).2, unitStep, hd]

/-- Settles O59: with a command running, a pause makes it the unit's turn; with none, it is the host's. -/
theorem pauseLetsTheCommandComplete : Obligations.PauseLetsTheCommandComplete := by
  intro s rest hw hp
  refine ⟨fun i hbusy hd => ?_, fun hidle => ?_⟩
  · exact step_of_unitDue ⟨hw, hbusy, .inr ⟨_, _, hp, .inl rfl⟩⟩ hd
  · have does : hostDoes s .pause rest := ⟨hw, hp, fun ⟨hbusy, _⟩ => by simp [hidle] at hbusy⟩
    rw [step_of_hostDoes does, State.hostTurn_pause]

/-! ### Accesses while a command runs -/

/-- A running command is due, or the host performs an access that finds the delay not over, if no reset is to
come. -/
theorem running_cases {s : State} (hw : s.params.wf = true) (hbusy : s.busy = true)
    (hr : HostAction.reset ∉ s.pending) :
    unitDue s ∨ ∃ a rest, hostDoes s a rest ∧ a ≠ .pause ∧ a ≠ .reset ∧ s.delay ≠ 0 := by
  cases hp : s.pending with
  | nil => exact .inl ⟨hw, hbusy, .inl hp⟩
  | cons a rest =>
    by_cases hfirst : a = .pause ∨ a ≠ .reset ∧ s.delay = 0
    · exact .inl ⟨hw, hbusy, .inr ⟨a, rest, hp, hfirst⟩⟩
    · have hreset : a ≠ .reset := fun e => hr (hp ▸ e ▸ List.mem_cons_self)
      exact .inr ⟨a, rest, ⟨hw, hp, fun ⟨_, h⟩ => hfirst h⟩, fun e => hfirst (.inl e), hreset,
        fun e => hfirst (.inr ⟨hreset, e⟩)⟩

/-- A host access while a command runs leaves it running, one access nearer to its completion, and gives the
host nothing new to do (R94, R119, R235). -/
theorem State.hostTurn_running {s : State} {a : HostAction} {rest : List HostAction}
    (hbusy : s.busy = true) (hpause : a ≠ .pause) (hreset : a ≠ .reset) :
    (s.hostTurn a rest).params = s.params ∧ (s.hostTurn a rest).busy = true ∧
      (s.hostTurn a rest).curCmd = s.curCmd ∧ (s.hostTurn a rest).delay = s.delay - 1 ∧
      (s.hostTurn a rest).pending ⊆ a :: rest := by
  have hsub : rest ⊆ a :: rest := List.subset_cons_self a rest
  cases a with
  | read addr =>
    obtain ⟨v, e | e⟩ := s.hostTurn_read_cases addr rest <;> rw [e] <;>
      exact ⟨rfl, hbusy, rfl, rfl, hsub⟩
  | write addr v =>
    rw [State.hostTurn_write]
    have dropped : (s.hostTakes rest).acceptCommand v = s.hostTakes rest := if_pos hbusy
    rcases (s.hostTakes rest).memWrite_cases (byteOffset addr) v with
      e | ⟨-, e⟩ | ⟨-, e⟩ | ⟨i, -, -, -, e⟩ <;> simp only [e, dropped] <;>
      exact ⟨rfl, hbusy, rfl, rfl, hsub⟩
  | poll =>
    rw [State.hostTurn_poll, if_pos hbusy]
    exact ⟨rfl, hbusy, rfl, rfl, List.Subset.refl _⟩
  | pause => exact absurd rfl hpause
  | reset => exact absurd rfl hreset

/-- What every access while a command runs keeps, and what leaves the host no reset to come, holds when the
command is due, after at most as many steps as its delay. -/
theorem running_comes_to_unitDue {P : State → Prop} (noReset : ∀ s, P s → HostAction.reset ∉ s.pending)
    (keep : ∀ s a rest, P s → s.busy = true → hostDoes s a rest → a ≠ .pause → a ≠ .reset →
      P (s.hostTurn a rest))
    {s : State} (hs : P s) (hw : s.params.wf = true) (hbusy : s.busy = true) :
    ∃ n u, n ≤ s.delay ∧ Host.Core.run Sys2Proof.core n s = .next u ∧ unitDue u ∧ P u := by
  induction hk : s.delay generalizing s with
  | zero =>
    rcases running_cases hw hbusy (noReset s hs) with due | ⟨_, _, -, -, -, hd⟩
    · exact ⟨0, s, le_rfl, rfl, due, hs⟩
    · exact absurd hk hd
  | succ k ih =>
    rcases running_cases hw hbusy (noReset s hs) with due | ⟨a, rest, does, hpause, hreset, -⟩
    · exact ⟨0, s, Nat.zero_le _, rfl, due, hs⟩
    · obtain ⟨hparams, hbusy', -, hdelay, -⟩ := State.hostTurn_running (rest := rest) hbusy hpause hreset
      obtain ⟨n, u, hn, hrun, hu⟩ :=
        ih (keep s a rest hs hbusy does hpause hreset) (hparams ▸ hw) hbusy' (by omega)
      exact ⟨n + 1, u, by omega, (run_succ (step_of_hostDoes does)).trans hrun, hu⟩

/-- The accepted word is still `w`, and no reset is to come. -/
def holdsWord (w : Word) (u : State) : Prop := HostAction.reset ∉ u.pending ∧ u.curCmd = w

theorem State.hostTurn_holdsWord {w : Word} (u : State) (a : HostAction) (rest : List HostAction)
    (hu : holdsWord w u) (hbusy : u.busy = true) (does : hostDoes u a rest) (hpause : a ≠ .pause)
    (hreset : a ≠ .reset) : holdsWord w (u.hostTurn a rest) := by
  obtain ⟨hr, hcur⟩ := hu
  obtain ⟨-, hp, -⟩ := does
  obtain ⟨-, -, hcur', -, hsub⟩ := State.hostTurn_running (rest := rest) hbusy hpause hreset
  exact ⟨fun h => hr (hp ▸ hsub h), hcur'.trans hcur⟩

/-- Settles O56: no access brings a reset or changes `CUR_CMD` while a command runs. -/
theorem runningCommandComesToItsCompletion : Obligations.RunningCommandComesToItsCompletion := by
  intro s hw hbusy hr
  have hs : holdsWord s.curCmd s := ⟨hr, rfl⟩
  obtain ⟨n, u, hn, hrun, due, -, hcur⟩ :=
    running_comes_to_unitDue (fun _ h => h.1) State.hostTurn_holdsWord hs hw hbusy
  exact ⟨n, u, hn, hrun, due, hcur⟩

/-! ### A host that only reads and polls -/

/-- The host's actions still to come are reads and polls. -/
def onlyReadsAndPolls (todo : List HostAction) : Prop :=
  ∀ a ∈ todo, a = .poll ∨ ∃ addr, a = .read addr

theorem keepsUnit_trans {s t u : State} (hst : keepsUnit s t) (htu : keepsUnit t u) : keepsUnit s u := by
  simp_all [keepsUnit, keepsRegisters]

/-- A read or a poll leaves every field of the unit as it was (R90, R119). -/
theorem State.hostTurn_keepsUnit (s : State) {a : HostAction} (rest : List HostAction)
    (ha : a = .poll ∨ ∃ addr, a = .read addr) : keepsUnit s (s.hostTurn a rest) := by
  rcases ha with rfl | ⟨addr, rfl⟩
  · rw [State.hostTurn_poll]
    exact keepsUnit_refl s
  · obtain ⟨v, e | e⟩ := s.hostTurn_read_cases addr rest <;> rw [e] <;> exact keepsUnit_refl s

/-- The unit is as it was in `s`, and the host still has only reads and polls to come. -/
def unchangedSince (s u : State) : Prop := onlyReadsAndPolls u.pending ∧ keepsUnit s u

theorem unchangedSince_noReset (s u : State) (h : unchangedSince s u) : HostAction.reset ∉ u.pending := by
  intro hr
  simpa using h.1 _ hr

theorem State.hostTurn_unchangedSince {s : State} (u : State) (a : HostAction) (rest : List HostAction)
    (hu : unchangedSince s u) (hbusy : u.busy = true) (does : hostDoes u a rest) (hpause : a ≠ .pause)
    (hreset : a ≠ .reset) : unchangedSince s (u.hostTurn a rest) := by
  obtain ⟨hq, kept⟩ := hu
  obtain ⟨-, hp, -⟩ := does
  obtain ⟨-, -, -, -, hsub⟩ := State.hostTurn_running (rest := rest) hbusy hpause hreset
  rw [hp] at hq
  exact ⟨fun b h => hq b (hsub h),
    keepsUnit_trans kept (u.hostTurn_keepsUnit rest (hq a List.mem_cons_self))⟩

/-- A `CMD` write to an idle unit answers the accepted command, its delay within `LATENCY` (R15, R235). -/
theorem step_of_cmdWrite_idle {s : State} {rest : List HostAction} {v : Word} (hidle : s.busy = false)
    (h : hostWrites s rest 0x00000 v) :
    ∃ k, k ≤ Config.latency ∧ step s = .next ((s.hostTakes rest).accepted v k).drawn := by
  have hstep := step_of_hostWrites h
  rw [State.memWrite_cmd] at hstep
  rcases (s.hostTakes rest).acceptCommand_cases v with ⟨hbusy, -⟩ | ⟨-, k, hk, e⟩
  · simp [hidle] at hbusy
  · exact ⟨k, hk, e ▸ hstep⟩

/-- Settles O57: the acceptance, then the accesses up to the completion step, none of which changes the
unit. -/
theorem writtenCommandRunsOnItsOperands : Obligations.WrittenCommandRunsOnItsOperands := by
  intro s rest i hidle h hq
  have hw : s.params.wf = true := hostWrites_wf h
  obtain ⟨k, hk, hstep⟩ := step_of_cmdWrite_idle hidle h
  have start : unchangedSince ((s.hostTakes rest).accepted (encode i) k).drawn
      ((s.hostTakes rest).accepted (encode i) k).drawn := ⟨hq, keepsUnit_refl _⟩
  obtain ⟨n, u, hn, hrun, due, -, kept⟩ := running_comes_to_unitDue
    (unchangedSince_noReset _) State.hostTurn_unchangedSince start hw rfl
  obtain ⟨⟨hparams, -, -, -, hlen, -, -, -, hin, hout, hcur, -⟩, htouched⟩ := kept
  have hd : decode u.curCmd = .ok i := by rw [hcur]; exact decode_encode i
  exact ⟨n + 1, u, Nat.succ_le_succ (hn.trans hk), (run_succ hstep).trans hrun, step_of_unitDue due hd,
    hlen, hin, hparams, hout, htouched⟩

end Sys2Proof.Machine
end

section
/-! PROOFS. The decoder by its three fields, and its agreement with the encoder on every word (R111 to R113). -/

namespace Sys2Proof

open Sys2Proof.Machine Sys2Proof.Claims

/-! ### The fields of a command word -/

/-- Every command is the one of its operation and its dialect, and of no others (R113). -/
theorem Instr.ofParts_eq_iff (op : Op) (d : Dialect) (i : Instr) :
    Instr.ofParts op d = i ↔ op = i.op ∧ d = i.dialect := by
  cases i <;> cases op <;> cases d <;> decide

/-- The opcode map of R112, read from the code. -/
theorem opOfCode_eq_some_iff (c : BitVec 4) (op : Op) :
    opOfCode c = some op ↔ c = BitVec.ofNat 4 op.code := by
  revert c
  cases op <;> decide

/-- The codes 1 to 6 name an operation, and no other does (R112, R114). -/
theorem exists_opOfCode_iff (c : BitVec 4) :
    (∃ op, opOfCode c = some op) ↔ 1 ≤ c.toNat ∧ c.toNat ≤ 6 := by
  rw [← Option.isSome_iff_exists]
  revert c
  decide

/-- The decoder in one line: reserved bits clear, `OP` and `D` those of the command (R113). -/
theorem decode_eq_ok_iff (v : Word) (i : Instr) :
    decode v = .ok i ↔
      reservedField v = 0#32 ∧ opOfCode (opField v) = some i.op ∧ dialectField v = i.dialect := by
  unfold decode
  by_cases hr : reservedField v = 0#32
  · cases ho : opOfCode (opField v) <;> simp [hr, Instr.ofParts_eq_iff]
  · simp [hr]

/-! ### The word of a command -/

/-- Bits 3:0 of a word are its `OP` field (R111). -/
theorem and_0xF_eq_opField (v : Word) : v &&& 0xF#32 = (opField v).setWidth 32 := by
  apply BitVec.eq_of_toNat_eq
  rw [BitVec.toNat_setWidth_of_le (by decide)]
  simpa [opField] using Nat.and_two_pow_sub_one_eq_mod v.toNat 4

/-- Bit 8 of a word is the code of its dialect (R11, R111). -/
theorem and_0x100_eq_dialectField (v : Word) :
    v &&& 0x100#32 = BitVec.ofNat 32 (dialectField v).code <<< 8 := by
  rw [show (0x100#32) = BitVec.twoPow 32 8 by rfl, BitVec.and_twoPow, dialectField]
  split <;> rfl

/-- With the reserved bits clear, a word is its `D` and `OP` fields (R111). -/
theorem eq_fields_of_reserved_clear {v : Word} (h : reservedField v = 0#32) :
    v = BitVec.ofNat 32 (dialectField v).code <<< 8 ||| (opField v).setWidth 32 := by
  unfold reservedField at h
  calc v = v &&& (0xFFFFFEF0#32 ||| (0x100#32 ||| 0xF#32)) := (BitVec.and_allOnes (x := v)).symm
    _ = (v &&& 0x100#32) ||| (v &&& 0xF#32) := by
      rw [BitVec.and_or_distrib_left, h, BitVec.zero_or, BitVec.and_or_distrib_left]
    _ = _ := by rw [and_0x100_eq_dialectField, and_0xF_eq_opField]

/-- A word that decodes is the encoding of the command it decodes to (R113). -/
theorem encode_of_decode {v : Word} {i : Instr} (h : decode v = .ok i) : encode i = v := by
  obtain ⟨hr, ho, hd⟩ := (decode_eq_ok_iff v i).1 h
  rw [eq_fields_of_reserved_clear hr, hd, (opOfCode_eq_some_iff _ _).1 ho, encode]
  congr 1
  cases i <;> rfl

/-- The encoding as a number: `D` times 256 plus `OP` (R113). -/
theorem encode_toNat (i : Instr) : (encode i).toNat = i.dialect.code * 256 + i.op.code := by
  cases i <;> rfl

/-- Settles O3: a word that decodes is put together again from its fields, and the twelve encodings decode. -/
theorem decodeAndEncodeAgree : Obligations.DecodeAndEncodeAgree :=
  fun _ _ => ⟨encode_of_decode, fun h => h ▸ decode_encode _⟩

/-- The decoder takes a word exactly if it is defined (R113). -/
theorem exists_decode_iff_definedWord (v : Word) : (∃ i, decode v = .ok i) ↔ definedWord v := by
  have hop : (v &&& 0xF#32).toNat = (opField v).toNat := by
    rw [and_0xF_eq_opField, BitVec.toNat_setWidth_of_le (by decide)]
  rw [definedWord, hop, ← exists_opOfCode_iff]
  constructor
  · rintro ⟨i, h⟩
    obtain ⟨hr, ho, -⟩ := (decode_eq_ok_iff v i).1 h
    exact ⟨hr, i.op, ho⟩
  · rintro ⟨hr, op, ho⟩
    obtain ⟨hop, hd⟩ := (Instr.ofParts_eq_iff op (dialectField v) _).1 rfl
    exact ⟨_, (decode_eq_ok_iff v _).2 ⟨hr, hop ▸ ho, hd⟩⟩

/-- Settles O2: the decoder's fields are R113's condition, and the word of a command is its encoding. -/
theorem decoderTakesExactlyTheDefinedWords : Obligations.DecoderTakesExactlyTheDefinedWords :=
  fun v => ⟨exists_decode_iff_definedWord v,
    fun i h => (congrArg BitVec.toNat (encode_of_decode h)).symm.trans (encode_toNat i)⟩

/-- Settles O1: nine fixed words, by evaluation. -/
theorem sampleWordsDecode : Obligations.SampleWordsDecode := by
  unfold Obligations.SampleWordsDecode
  decide

end Sys2Proof
end

section
/-! PROOFS. The completion of a word that is no command (R114, R115, R231), and the host's `POLL` (R119). -/

namespace Sys2Proof.Machine

open Sys2Proof.Claims

/-- Completion with an error leaves its record, and every `OUT_BUF` entry free (R230 to R232, R236). -/
theorem State.finishErr_failsWith (s : State) (e : CmdError) :
    failsWith s (s.finishErr e) e.errCode e.errChar e.errPos :=
  ⟨rfl, rfl, rfl, rfl, rfl, rfl, fun _ => State.readOutBuf_freed rfl rfl rfl, rfl⟩

/-- Completion with an error leaves the inputs and the host's side as they were (R236). -/
theorem State.finishErr_keepsRest (s : State) (e : CmdError) : keepsRest s (s.finishErr e) :=
  ⟨rfl, rfl, rfl, rfl, rfl, rfl, rfl, rfl⟩

/-- On an undefined word whose inputs were left alone, the unit's step is the completion with `ILLEGAL_CMD`
(R114, R115, R231). -/
theorem unitStep_of_undefinedWord {s : State} (ht : s.inputsTouched = false)
    (hundef : ¬definedWord s.curCmd) : unitStep s = .next (s.finishErr .illegalCmd) := by
  rcases unitStep_eq_complete s with ⟨i, hd, -⟩ | ⟨-, e⟩
  · exact absurd ((exists_decode_iff_definedWord _).1 ⟨i, hd⟩) hundef
  · rw [e, State.complete_next _ ht, State.finish_err]

/-- Settles O6: the step is the unit's, and an undefined word completes with `ILLEGAL_CMD`. -/
theorem undefinedWordCompletesIllegalCmd : Obligations.UndefinedWordCompletesIllegalCmd := by
  intro s due ht hundef
  obtain ⟨hw, hm⟩ := (unitDue_iff s).1 due
  exact ⟨s.finishErr .illegalCmd, (step_unit hw hm).trans (unitStep_of_undefinedWord ht hundef),
    s.finishErr_failsWith .illegalCmd, s.finishErr_keepsRest .illegalCmd⟩

/-- Settles O44: the step is the poll, a read of `STATUS` that the host takes up again while `BUSY` is 1. -/
theorem pollWaitsForBusyToClear : Obligations.PollWaitsForBusyToClear := by
  intro s rest does
  rw [step_of_hostDoes does, State.hostTurn_poll, ← State.statusWord_eq]
  exact ⟨_, rfl, keepsUnit_refl s, ⟨rfl, rfl⟩, rfl, rfl⟩

end Sys2Proof.Machine
end

section
/-! PROOFS. The inverse table and the lookup of a well-formed unit (R144 to R148). -/

namespace Sys2Proof

open Sys2Proof.Claims

/-- The inverse table answers digit `g` at the code of `g`'s character and nowhere else (R145). -/
theorem Params.inverse_getD_eq_some_iff {p : Params} (hw : p.wf = true) (d : Dialect) (a : Nat)
    (g : Digit) : (p.inverse d).getD a none = some g ↔ (p.charOf d g).toNat = a := by
  obtain ⟨hl, hn, -, -⟩ := Params.wf_alphabet hw d
  rw [Params.inverse, invert_getD_eq_some_iff hl hn, Params.charOf_eq hw]
  simp

theorem Params.inverse_getElem?_eq_some_iff {p : Params} (hw : p.wf = true) (d : Dialect) (a : Nat)
    (g : Digit) : (p.inverse d)[a]? = some (some g) ↔ (p.charOf d g).toNat = a := by
  rw [← Params.inverse_getD_eq_some_iff hw, List.getD_eq_getElem?_getD, Option.getD_eq_iff]
  simp

/-- No two entries of the inverse table are the same digit: each is at the code of its character. -/
theorem Params.inverse_reduceOption_nodup {p : Params} (hw : p.wf = true) (d : Dialect) :
    (p.inverse d).reduceOption.Nodup := by
  refine List.pairwise_filterMap.2 (List.pairwise_iff_getElem.2 ?_)
  rintro i j hi hj hij g hg g' hg' rfl
  have at_code : ∀ a (ha : a < (p.inverse d).length), (p.inverse d)[a] = some g →
      (p.charOf d g).toNat = a := fun a ha h =>
    (Params.inverse_getElem?_eq_some_iff hw d a g).1 (List.getElem?_eq_some_iff.2 ⟨ha, h⟩)
  exact hij.ne ((at_code i hi hg).symm.trans (at_code j hj hg'))

/-- The entries of the inverse table that are not `ABSENT` are the 40 digits, each once (R145). -/
theorem Params.inverse_reduceOption_perm {p : Params} (hw : p.wf = true) (d : Dialect) :
    (p.inverse d).reduceOption.Perm (List.finRange 40) := by
  refine (List.perm_ext_iff_of_nodup (Params.inverse_reduceOption_nodup hw d)
    (List.nodup_finRange 40)).2 fun g => ?_
  have hg := (Params.inverse_getElem?_eq_some_iff hw d _ g).2 rfl
  simpa [List.reduceOption_mem_iff] using List.mem_of_getElem? hg

/-- Settles O27: each digit is at the code of its character, and those are all the digits there are. -/
theorem alphabetBijection : Obligations.AlphabetBijection := by
  intro p d hw
  refine ⟨fun g => (Params.inverse_getElem?_eq_some_iff hw d _ g).2 rfl, ?_, invert_length _⟩
  rw [← List.reduceOption_length_eq, (Params.inverse_reduceOption_perm hw d).length_eq,
    List.length_finRange]

theorem eq_charEntry_iff (p : Params) (d : Dialect) (c : Word) (g : Digit) :
    c = charEntry p d g ↔ (p.charOf d g).toNat = c.toNat := by
  rw [charEntry, ← BitVec.toNat_inj, BitVec.toNat_setWidth_of_le (by decide), eq_comm]

/-- A lookup answers the digit the inverse table has: beyond 0x7F the table has none (R147). -/
theorem lookup_eq_ok_iff_inverse (p : Params) (d : Dialect) (c : Word) (pos : Nat) (g : Digit) :
    lookup p d c pos = .ok g ↔ (p.inverse d).getD c.toNat none = some g := by
  unfold lookup
  split
  · next hbig =>
    have hout : (p.inverse d).length ≤ c.toNat := (invert_length _).trans_le hbig
    simp [List.getD_eq_getElem?_getD, List.getElem?_eq_none hout]
  · split
    · next hnone => simp only [hnone, reduceCtorEq]
    · next i hsome => simp only [hsome, Except.ok.injEq, Option.some.injEq]

theorem lookup_eq_ok_iff {p : Params} (hw : p.wf = true) (d : Dialect) (c : Word) (pos : Nat)
    (g : Digit) : lookup p d c pos = .ok g ↔ c = charEntry p d g := by
  rw [lookup_eq_ok_iff_inverse, Params.inverse_getD_eq_some_iff hw, eq_charEntry_iff]

/-- What is no character of the alphabet is recorded, with the position as given (R147, R148). -/
theorem lookup_of_not_legalChar {p : Params} (hw : p.wf = true) {d : Dialect} {c : Word}
    (hc : ¬legalChar p d c) (pos : Nat) : lookup p d c pos = .error { char := c, pos := pos } := by
  cases h : lookup p d c pos with
  | ok g => exact absurd ⟨g, (lookup_eq_ok_iff hw d c pos g).1 h⟩ hc
  | error e => rw [lookup_error h]

/-- Settles O28: the lookup reads the inverse table, which has a digit at the code of its character only. -/
theorem lookupFindsExactlyTheAlphabet : Obligations.LookupFindsExactlyTheAlphabet :=
  fun _ d c pos hw => ⟨lookup_eq_ok_iff hw d c pos, fun hc => lookup_of_not_legalChar hw hc pos⟩

end Sys2Proof
end

section
/-! PROOFS. The commands `ALPHA` and `LOOKUP` (R149, R150), and the refusal of an ill-formed unit (R143). -/

namespace Sys2Proof.Machine

open Sys2Proof.Claims

/-- Completion without error leaves exactly its outputs (R236). -/
theorem State.finishOk_succeedsWith (s : State) (out : List Word) :
    succeedsWith s (s.finishOk out) out := by
  refine ⟨rfl, rfl, rfl, rfl, rfl, rfl, fun j hj => ?_, fun j hj => ?_, rfl, rfl⟩
  · have := Buf.read_writeFrom_inside s.outBuf out 0 j hj
    rwa [Nat.zero_add, ← List.getElem?_eq_getElem hj] at this
  · exact Buf.read_writeFrom_above s.outBuf out (by rwa [Nat.zero_add])

/-- Completion without error leaves the inputs and the host's side as they were (R236). -/
theorem State.finishOk_keepsRest (s : State) (out : List Word) : keepsRest s (s.finishOk out) :=
  ⟨rfl, rfl, rfl, rfl, rfl, rfl, rfl, rfl⟩

theorem exec_of_evalOf {i : Instr} {s : State} {r : CmdResult} (ht : s.inputsTouched = false)
    (h : evalOf i s = .next r) : exec i s = .next (s.finish r) := by
  rw [exec_eq_complete, h, State.complete_next r ht]

/-- A command whose outcome is a list of outputs succeeds with them and changes nothing else (R236). -/
theorem exec_succeeds {i : Instr} {s : State} {out : List Word} (ht : s.inputsTouched = false)
    (h : evalOf i s = .next (.ok out)) :
    ∃ t, exec i s = .next t ∧ keepsRest s t ∧ succeedsWith s t out :=
  ⟨_, exec_of_evalOf ht h, s.finishOk_keepsRest out, s.finishOk_succeedsWith out⟩

/-- A command whose outcome is an error fails with its record and changes nothing else (R236). -/
theorem exec_fails {i : Instr} {s : State} {e : CmdError} (ht : s.inputsTouched = false)
    (h : evalOf i s = .next (.err e)) :
    ∃ t, exec i s = .next t ∧ keepsRest s t ∧ failsWith s t e.errCode e.errChar e.errPos :=
  ⟨_, exec_of_evalOf ht h, s.finishErr_keepsRest e, s.finishErr_failsWith e⟩

/-- `ALPHA` needs no operand and no well-formed table (R149). -/
theorem evalOf_alpha {i : Instr} (hop : i.op = .alpha) (s : State) :
    evalOf i s = .next (.ok ((List.finRange 40).map (charEntry s.params i.dialect))) := by
  rw [evalOf, hop]
  rfl

/-- Settles O21: the outcome of `ALPHA` is the table, in every state. -/
theorem alphaWritesTheAlphabet : Obligations.AlphaWritesTheAlphabet :=
  fun _ s hop ht => exec_succeeds ht (evalOf_alpha hop s)

/-- `LOOKUP` with one operand is the lookup of the entry it reads (R150). -/
theorem evalOf_lookup {i : Instr} {s : State} {c : Word} (hop : i.op = .lookup)
    (hw : s.params.wf = true) (hlen : s.len = 1) (hc : Buf.read s.inBuf 0 = some c) :
    evalOf i s = .next (lookupResult s.params i.dialect [c]) := by
  have hfit : ¬lengthMisfit i s := by simp [lengthMisfit, hop, hlen]
  have hlong : ¬overlongRefused i s := by simp [overlongRefused, hop]
  have hread : ∀ k, k < [c].length → Buf.read s.inBuf k = [c][k]? := by simpa using hc
  have hcount : readCount i s = [c].length := by simp [readCount, hop]
  rw [evalOf_reads hw hfit hlong, hcount, State.withInputs_next _ hread, outcomeOf, hop]

/-- Settles O22: the lookup finds the digit of its character. -/
theorem lookupWritesTheDigit : Obligations.LookupWritesTheDigit := by
  intro i s g hop hw ht hlen hc
  refine exec_succeeds ht ?_
  rw [evalOf_lookup hop hw hlen hc, lookupResult, List.getD_cons_zero,
    (lookup_eq_ok_iff hw i.dialect _ 1 g).2 rfl]
  rfl

/-- Settles O23: the lookup fails, and its record has position 1. -/
theorem lookupReportsAnIllegalCharacter : Obligations.LookupReportsAnIllegalCharacter := by
  intro i s c hop hw ht hlen hc hill
  refine exec_fails (e := .illegalChar c 1) ht ?_
  rw [evalOf_lookup hop hw hlen hc, lookupResult, List.getD_cons_zero,
    lookup_of_not_legalChar hw hill]

/-- Settles O7: the step looks at the configuration first. -/
theorem illFormedUnitIsRefused : Obligations.IllFormedUnitIsRefused :=
  fun _ hill => if_neg hill

end Sys2Proof.Machine
end

section
/-! PROOFS. The positional system to base 40: `Pack`, `Unpack` and their laws (R170 to R175). -/

namespace Sys2Proof

open Sys2Proof.Claims

/-! ### Values of digit lists, for any number of digits -/

@[simp] theorem digitOf_val (x : Nat) : (digitOf x).val = x % 40 := rfl

@[simp] theorem packValue_append_singleton (digits : List Digit) (g : Digit) :
    packValue (digits ++ [g]) = packValue digits * 40 + g.val := by
  simp [packValue]

theorem packValue_lt (digits : List Digit) : packValue digits < 40 ^ digits.length := by
  induction digits using List.reverseRecOn with
  | nil => decide
  | append_singleton digits g ih =>
    rw [packValue_append_singleton, List.length_append, List.length_singleton, pow_succ]
    omega

/-- The `n` digits of a value, the most significant first, by R173's formula. -/
def digitsOf (n x : Nat) : List Digit := (List.range n).map fun k => digitOf (x / 40 ^ (n - 1 - k))

@[simp] theorem digitsOf_length (n x : Nat) : (digitsOf n x).length = n := by simp [digitsOf]

/-- The last digit is the value modulo 40, and the others are those of the value divided by 40. -/
theorem digitsOf_succ (n x : Nat) : digitsOf (n + 1) x = digitsOf n (x / 40) ++ [digitOf x] := by
  have higher : ∀ k ∈ List.range n,
      digitOf (x / 40 ^ (n + 1 - 1 - k)) = digitOf (x / 40 / 40 ^ (n - 1 - k)) := by
    intro k hk
    have hexp : n + 1 - 1 - k = n - 1 - k + 1 := by have := List.mem_range.1 hk; omega
    rw [hexp, pow_succ', Nat.div_div_eq_div_mul]
  rw [digitsOf, List.range_succ, List.map_append, List.map_congr_left higher]
  simp [digitsOf]

/-- The digits of a value give it back but for what lies beyond `40^n`. -/
theorem packValue_digitsOf (n x : Nat) : packValue (digitsOf n x) = x % 40 ^ n := by
  induction n generalizing x with
  | zero => simp [digitsOf, packValue, Nat.mod_one]
  | succ n ih =>
    rw [digitsOf_succ, packValue_append_singleton, ih, pow_succ', Nat.mod_mul, digitOf_val]
    omega

/-- A digit list is read back from its value. -/
theorem digitsOf_packValue (digits : List Digit) :
    digitsOf digits.length (packValue digits) = digits := by
  induction digits using List.reverseRecOn with
  | nil => rfl
  | append_singleton digits g ih =>
    have hdiv : (packValue digits * 40 + g.val) / 40 = packValue digits := by omega
    have hlast : digitOf (packValue digits * 40 + g.val) = g := by
      apply Fin.ext
      rw [digitOf_val]
      omega
    rw [List.length_append, List.length_singleton, packValue_append_singleton, digitsOf_succ, hdiv,
      hlast, ih]

theorem digitsOf_mod (n x : Nat) : digitsOf n (x % 40 ^ n) = digitsOf n x := by
  have h := digitsOf_packValue (digitsOf n x)
  rwa [digitsOf_length, packValue_digitsOf] at h

/-! ### Words of the two dialects -/

/-- Every value of `N` digits fits the word (R11, R170). -/
theorem Dialect.pow_chars_le (d : Dialect) : 40 ^ d.chars ≤ 2 ^ d.width := by cases d <;> decide

theorem pack_toNat {d : Dialect} {digits : List Digit} (h : digits.length = d.chars) :
    (pack d digits).toNat = packValue digits := by
  have hfits : packValue digits < 2 ^ d.width := (packValue_lt digits).trans_le (h ▸ d.pow_chars_le)
  rw [pack, BitVec.toNat_ofNat, Nat.mod_eq_of_lt hfits]

/-- `Unpack` gives the `N` digits of the word's value (R173). -/
theorem unpack_eq_digitsOf (d : Dialect) (v : BitVec d.width) :
    unpack d v = digitsOf d.chars v.toNat := rfl

@[simp] theorem unpack_length (d : Dialect) (v : BitVec d.width) : (unpack d v).length = d.chars :=
  digitsOf_length _ _

theorem unpack_pack {d : Dialect} {digits : List Digit} (h : digits.length = d.chars) :
    unpack d (pack d digits) = digits := by
  rw [unpack_eq_digitsOf, pack_toNat h, ← h, digitsOf_packValue]

theorem pack_unpack_toNat (d : Dialect) (v : BitVec d.width) :
    (pack d (unpack d v)).toNat = v.toNat % 40 ^ d.chars := by
  rw [pack_toNat (unpack_length d v), unpack_eq_digitsOf, packValue_digitsOf]

/-- The accumulation of R171 is the sum of R170. -/
theorem packValue_eq_wordValue {d : Dialect} {digits : List Digit} (h : digits.length = d.chars) :
    packValue digits = wordValue d digits := by
  cases d with
  | pdp11 =>
    match digits, h with
    | [d0, d1, d2], _ =>
      simp only [packValue, wordValue, List.foldl, List.getD_cons_zero, List.getD_cons_succ]
      omega
  | pdp10 =>
    match digits, h with
    | [d0, d1, d2, d3, d4, d5], _ =>
      simp only [packValue, wordValue, List.foldl, List.getD_cons_zero, List.getD_cons_succ]
      omega

/-- Settles O29: the word holds the accumulated value, which is the sum, below `40^N`. -/
theorem packIsThePositionalValue : Obligations.PackIsThePositionalValue := by
  intro d digits h
  rw [pack_toNat h, ← packValue_eq_wordValue h, ← h]
  exact ⟨rfl, packValue_lt digits⟩

/-- Settles O30: value and digits determine each other up to `40^N`. -/
theorem packAndUnpackAreInverse : Obligations.PackAndUnpackAreInverse :=
  fun d => ⟨fun _ h => unpack_pack h, pack_unpack_toNat d⟩

/-- Settles O31: the digits are those of the value modulo `40^N`, which is itself a word's value. -/
theorem unpackDiscardsTheOverflow : Obligations.UnpackDiscardsTheOverflow := by
  intro d v
  have hfits : v.toNat % 40 ^ d.chars < 2 ^ d.width := (Nat.mod_le _ _).trans_lt v.isLt
  refine ⟨?_, unpack_length d v⟩
  rw [unpack_eq_digitsOf, unpack_eq_digitsOf, BitVec.toNat_ofNat, Nat.mod_eq_of_lt hfits,
    digitsOf_mod]

end Sys2Proof
end

section
/-! PROOFS. The words of chunks of characters and the characters of words (R190 to R198), for both dialects. -/

namespace Sys2Proof

open Sys2Proof.Machine Sys2Proof.Claims

/-! ### Padding -/

theorem getD_append_replicate {α : Type} (s : List α) (n k : Nat) (x : α) :
    (s ++ List.replicate n x).getD k x = s.getD k x := by
  by_cases hk : k < s.length
  · rw [List.getD_append _ _ _ _ hk]
  · have hle : s.length ≤ k := Nat.le_of_not_lt hk
    rw [List.getD_append_right _ _ _ _ hle, List.getD_eq_default s x hle, List.getD_eq_getElem?_getD,
      List.getElem?_getD_replicate_default_eq]

/-- Spaces written after a chunk are the spaces that stand for its missing characters (R190, R194). -/
theorem padded_append_spaces (d : Dialect) (s : List Word) (n : Nat) :
    padded d (s ++ List.replicate n padChar) = padded d s := by
  simp only [padded, getD_append_replicate]

/-- Settles O32: the encoder looks at the padded chunk only, and padding is what `padded` does itself. -/
theorem paddingMakesNoDifference : Obligations.PaddingMakesNoDifference := by
  intro p d s _
  rw [← padChar, encodeWord, encodeWord, padded_append_spaces]

/-! ### Chunks of legal characters -/

/-- The `N` digits of a chunk, a missing one being that of the space (R142, R190). -/
def padDigits (d : Dialect) (digits : List Digit) : List Digit :=
  (List.range d.chars).map fun k => digits.getD k 0

@[simp] theorem padDigits_length (d : Dialect) (digits : List Digit) :
    (padDigits d digits).length = d.chars := by
  simp [padDigits]

/-- R170's sum takes a missing digit as 0 itself. -/
theorem wordValue_padDigits (d : Dialect) (digits : List Digit) :
    wordValue d (padDigits d digits) = wordValue d digits := by
  cases d <;> rfl

theorem charEntry_zero {p : Params} (hw : p.wf = true) (d : Dialect) : charEntry p d 0 = padChar := by
  rw [charEntry, Params.charOf_zero hw]
  rfl

/-- Padding with spaces is padding with digit 0 (R142). -/
theorem padded_map_charEntry {p : Params} (hw : p.wf = true) (d : Dialect) (digits : List Digit) :
    padded d (digits.map (charEntry p d)) = (padDigits d digits).map (charEntry p d) := by
  simp only [padded, padDigits, List.map_map, ← charEntry_zero hw d, List.getD_map]
  rfl

/-- The lookups of the characters of a digit list give the list back. -/
theorem lookupAll_map_charEntry {p : Params} (hw : p.wf = true) (d : Dialect) (digits : List Digit)
    (pos : Nat) : lookupAll p d pos (digits.map (charEntry p d)) = .ok digits := by
  refine lookupAll_ok _ _ _ (List.length_map _) fun k c g hc hg q => ?_
  rw [List.getElem?_map, hg] at hc
  injection hc with hc
  exact (lookup_eq_ok_iff hw d c q g).2 hc.symm

/-- A chunk of legal characters encodes as the value of its digits, padded with digit 0 (R170, R190). -/
theorem encodeWord_map_charEntry {p : Params} (hw : p.wf = true) (d : Dialect) (digits : List Digit) :
    encodeWord p d (digits.map (charEntry p d)) = .ok (pack d (padDigits d digits)) := by
  rw [encodeWord, padded_map_charEntry hw, lookupAll_map_charEntry hw]

/-- The packed word of a chunk, as an `OUT_BUF` entry, holds R170's sum. -/
theorem wordEntry_pack_padDigits (d : Dialect) (digits : List Digit) :
    wordEntry (pack d (padDigits d digits)) = BitVec.ofNat 32 (wordValue d digits) := by
  have hlen := padDigits_length d digits
  apply BitVec.eq_of_toNat_eq
  rw [wordEntry, BitVec.toNat_setWidth, pack_toNat hlen, packValue_eq_wordValue hlen,
    wordValue_padDigits, BitVec.toNat_ofNat]

/-! ### Chunks with an illegal character -/

/-- A chunk is reported at its first illegal character, with the local position from 1 (R190, R191). -/
theorem encodeWord_illegal {p : Params} (hw : p.wf = true) {d : Dialect} {cs : List Word} {k : Nat}
    {c : Word} (hN : k < d.chars) (hk : cs[k]? = some c) (hc : ¬legalChar p d c)
    (hbefore : ∀ j e, j < k → cs[j]? = some e → legalChar p d e) :
    encodeWord p d cs = .error { char := c, pos := k + 1 } := by
  have hlen : k < cs.length := (List.getElem?_eq_some_iff.1 hk).1
  have padded_inside : ∀ j, j ≤ k → (padded d cs)[j]? = cs[j]? := by
    intro j hj
    have hjlen : j < cs.length := by omega
    rw [padded_getElem? d cs (by omega), List.getD_eq_getElem cs padChar hjlen,
      List.getElem?_eq_getElem hjlen]
  have hall : lookupAll p d 1 (padded d cs) = .error { char := c, pos := 1 + k } := by
    refine lookupAll_error _ 1 k c ((padded_inside k le_rfl).trans hk)
      (lookup_of_not_legalChar hw hc) fun j e hj he => ?_
    obtain ⟨g, hg⟩ := hbefore j e hj ((padded_inside j hj.le).symm.trans he)
    exact ⟨g, fun q => (lookup_eq_ok_iff hw d e q g).2 hg⟩
  rw [encodeWord, hall, Nat.add_comm]

/-! ### The characters of a word -/

/-- The characters of a word operand are those of R173's digits of the entry's low `W` bits (R195, R196). -/
theorem decodeWord_wordOperand (p : Params) (d : Dialect) (v : Word) :
    (decodeWord p d (wordOperand d v)).map codeEntry =
      (List.range d.chars).map fun k => charEntry p d (entryDigit d v k) := by
  have hdigits : unpack d (wordOperand d v) = (List.range d.chars).map (entryDigit d v) := by
    simp only [unpack, wordOperand, BitVec.toNat_setWidth]
    rfl
  rw [decodeWord, hdigits, List.map_map, List.map_map]
  rfl

/-- Settles O33: each character is the table's entry for a digit, and a well-formed table has only printable
entries. -/
theorem decodedCharactersAreOfTheAlphabet : Obligations.DecodedCharactersAreOfTheAlphabet := by
  intro p d v hw
  refine ⟨decodeWord_length p d v, fun c hc => ?_⟩
  obtain ⟨g, -, rfl⟩ := List.mem_map.1 hc
  obtain ⟨-, -, hprintable, -⟩ := Params.wf_alphabet hw d
  have hmem := Params.charOf_mem hw d g
  exact ⟨hmem, hprintable _ hmem⟩

end Sys2Proof
end

section
/-! PROOFS. The single-word commands `ENCW` and `DECW` (R192, R193, R197), and which steps are refused. -/

namespace Sys2Proof.Machine

open Sys2Proof.Claims

/-! ### Refusals -/

/-- No `ENCW` is refused that has at most `N` characters or runs in a unit built to truncate (R193; U1). -/
theorem not_overlongRefused {i : Instr} {s : State}
    (h : s.len ≤ i.dialect.chars ∨ s.params.overlong = .truncate) : ¬overlongRefused i s := by
  rintro ⟨-, hlong, hrefuse⟩
  rcases h with hshort | htrunc
  · omega
  · simp [htrunc] at hrefuse

/-- A command of a well-formed unit is refused as an over-long `ENCW` or not at all. -/
theorem evalOf_ne_refused {i : Instr} {s : State} (hw : s.params.wf = true)
    (hlong : ¬overlongRefused i s) (r : Refusal) : evalOf i s ≠ .refused r := by
  by_cases hfit : lengthMisfit i s
  · rw [evalOf_misfit hfit]
    simp
  · rw [evalOf_reads hw hfit hlong]
    exact s.withInputs_ne_refused _ _ r

/-- Completion refuses only what the command refuses. -/
theorem State.complete_ne_refused {s : State} {e : Eval} {r : Refusal} (h : e ≠ .refused r) :
    s.complete e ≠ .refused r := by
  cases ht : s.inputsTouched with
  | true => simp [State.complete_touched e ht]
  | false =>
    cases e with
    | next o => simp [State.complete_next o ht]
    | fault f => simp [State.complete_fault f ht]
    | refused q => simpa [State.complete_refused q ht] using h

/-- Settles O8: only a command can be refused, and a unit that truncates refuses none. -/
theorem defaultUnitIsNeverRefused : Obligations.DefaultUnitIsNeverRefused := by
  intro s hw htrunc r
  cases hm : s.nextMove with
  | unit =>
    rw [step_unit hw hm]
    rcases unitStep_eq_complete s with ⟨i, -, e⟩ | ⟨-, e⟩
    · rw [e]
      exact State.complete_ne_refused
        (evalOf_ne_refused hw (not_overlongRefused (.inr htrunc)) r)
    · rw [e]
      exact State.complete_ne_refused (by simp)
  | host a rest => simp [step_host hw hm]
  | idle => simp [step_idle hw hm]

/-- Settles O17: the command refuses, and with its inputs left alone so does its completion. -/
theorem encwOverlongIsRefusedWhereTheParameterSaysSo :
    Obligations.EncwOverlongIsRefusedWhereTheParameterSaysSo := by
  intro i s hop ht hfit hlong hrefuse
  rw [exec_eq_complete, evalOf_overlong hfit ⟨hop, hlong, hrefuse⟩, State.complete_refused _ ht]

/-! ### Results -/

/-- With operands that fit and hold a value, the command's outcome is what it makes of them. -/
theorem evalOf_holdsInputs {i : Instr} {s : State} {ws : List Word} (hw : s.params.wf = true)
    (hfit : ¬lengthMisfit i s) (hlong : ¬overlongRefused i s) (hl : ws.length = readCount i s)
    (hin : holdsInputs s ws) : evalOf i s = .next (outcomeOf i s.params ws) := by
  rw [evalOf_reads hw hfit hlong, ← hl, State.withInputs_next _ hin]

/-- `ENCW` that is not refused is the encode of the first `min(L, N)` entries (R192, R193). -/
theorem evalOf_encw {i : Instr} {s : State} {cs : List Word} (hop : i.op = .encw)
    (hw : s.params.wf = true) (hfit : ¬lengthMisfit i s)
    (hshort : s.len ≤ i.dialect.chars ∨ s.params.overlong = .truncate)
    (hl : cs.length = min s.len i.dialect.chars) (hin : holdsInputs s cs) :
    evalOf i s = .next (encodeWordResult s.params i.dialect cs) := by
  have hcount : cs.length = readCount i s := by rw [hl, readCount, hop]
  rw [evalOf_holdsInputs hw hfit (not_overlongRefused hshort) hcount hin, outcomeOf, hop]

/-- Settles O14: the chunk's characters are legal, so its outcome is the word of their digits. -/
theorem encwWritesOneWord : Obligations.EncwWritesOneWord := by
  intro i s digits hop hw ht hfit hshort hl hin
  refine exec_succeeds ht ?_
  rw [evalOf_encw hop hw hfit hshort ((List.length_map _).trans hl) hin, encodeWordResult,
    encodeWord_map_charEntry hw]
  simp only [wordEntry_pack_padDigits]

/-- Settles O15: the encode fails at the chunk's first illegal character, and its record is the command's. -/
theorem encwReportsTheFirstIllegalCharacter : Obligations.EncwReportsTheFirstIllegalCharacter := by
  intro i s cs k c hop hw ht hfit hshort hl hin hk hc hbefore
  have hN : k < i.dialect.chars := by
    have := (List.getElem?_eq_some_iff.1 hk).1
    omega
  refine exec_fails (e := .illegalChar c (k + 1)) ht ?_
  rw [evalOf_encw hop hw hfit hshort hl hin, encodeWordResult, encodeWord_illegal hw hN hk hc hbefore]

/-- Settles O20: `DECW` with one operand is the decode of the entry it reads. -/
theorem decwWritesTheCharactersOfItsWord : Obligations.DecwWritesTheCharactersOfItsWord := by
  intro i s v hop hw ht hlen hv
  have hfit : ¬lengthMisfit i s := by simp [lengthMisfit, hop, hlen]
  have hlong : ¬overlongRefused i s := by simp [overlongRefused, hop]
  have hcount : [v].length = readCount i s := by simp [readCount, hop]
  have hin : holdsInputs s [v] := by simpa [holdsInputs] using hv
  refine exec_succeeds ht ?_
  rw [evalOf_holdsInputs hw hfit hlong hcount hin, outcomeOf, hop]
  simp only [decodeWordResult, List.getD_cons_zero, decodeWord_wordOperand]

/-! ### Entries at or beyond `N` -/

/-- Buffers that hold the same in the entries read give the same operands. -/
theorem Buf.readFrom_congr {b c : Buf} {i n : Nat}
    (h : ∀ k, i ≤ k → k < i + n → Buf.read b k = Buf.read c k) :
    Buf.readFrom b i n = Buf.readFrom c i n := by
  induction n generalizing i with
  | zero => rfl
  | succ n ih =>
    rw [Buf.readFrom, Buf.readFrom, h i le_rfl (by omega), ih fun k h1 h2 => h k (by omega) (by omega)]

/-- `ENCW` computes the same from any `IN_BUF` with the same first `N` entries (R193). -/
theorem evalOf_encw_withInBuf {i : Instr} {s : State} {b : Buf} (hop : i.op = .encw)
    (h : ∀ k, k < i.dialect.chars → Buf.read b k = Buf.read s.inBuf k) :
    evalOf i (s.withInBuf b) = evalOf i s := by
  have hread : ∀ f, (s.withInBuf b).withInputs (min s.len i.dialect.chars) f =
      s.withInputs (min s.len i.dialect.chars) f := by
    intro f
    rw [State.withInputs, State.withInputs, State.withInBuf_inBuf,
      Buf.readFrom_congr fun k _ hk => h k (by omega)]
  have hlen : (s.withInBuf b).len = s.len := rfl
  simp only [evalOf, hop, evalEncw, hlen, State.withInBuf_params, hread]

/-- Completion neither reads nor writes `IN_BUF` (R236, R266). -/
theorem State.complete_withInBuf {s t : State} {e : Eval} (b : Buf) (h : s.complete e = .next t) :
    (s.withInBuf b).complete e = .next (t.withInBuf b) := by
  rcases State.complete_cases h with ⟨ht, rfl⟩ | ⟨ht, r, rfl, rfl⟩
  · rw [State.complete_touched _ (by simpa using ht)]
    rfl
  · rw [State.complete_next _ (by simpa using ht)]
    cases r <;> rfl

/-- Settles O16: the entry written is none that `ENCW` reads, and completion keeps `IN_BUF`. -/
theorem encwIgnoresEntriesBeyondN : Obligations.EncwIgnoresEntriesBeyondN := by
  intro i s k v t hop hk h
  have hsame : ∀ j, j < i.dialect.chars → Buf.read (Buf.write s.inBuf k v) j = Buf.read s.inBuf j :=
    fun j hj => Buf.read_write_other _ v (by omega)
  rw [exec_eq_complete] at h ⊢
  rw [evalOf_encw_withInBuf hop hsame]
  exact State.complete_withInBuf _ h

end Sys2Proof.Machine
end

section
/-! PROOFS. The words of a whole string and the characters of a word list (R210 to R219), for both dialects. -/

namespace Sys2Proof

open Sys2Proof.Machine Sys2Proof.Claims

/-! ### Lists in blocks of `n` entries -/

/-- `m` blocks of `n` entries, written one after the other, are one list of `m * n` entries. -/
theorem flatMap_range_blocks {α : Type} (f : Nat → α) (m n : Nat) :
    (List.range m).flatMap (fun j => (List.range n).map fun k => f (j * n + k)) =
      (List.range (m * n)).map f := by
  induction m with
  | zero => simp
  | succ m ih =>
    rw [List.range_succ, List.flatMap_append, ih, Nat.succ_mul, List.range_add, List.map_append,
      List.map_map, List.flatMap_singleton]
    rfl

/-- Reading with a default up to a count that covers the list gives the list, padded with the default. -/
theorem map_range_getD {α : Type} (l : List α) (x : α) {n : Nat} (h : l.length ≤ n) :
    (List.range n).map (fun m => l.getD m x) = l ++ List.replicate (n - l.length) x := by
  refine List.ext_getElem (by simp; omega) fun m hm _ => ?_
  rw [List.getElem_map, List.getElem_range, ← getD_append_replicate l (n - l.length) m x,
    List.getD_eq_getElem]

/-- What a list's entries give is what its indexes give. -/
theorem flatMap_eq_flatMap_range {α β : Type} (l : List α) (x : α) (f : α → List β) :
    l.flatMap f = (List.range l.length).flatMap fun j => f (l.getD j x) := by
  have hl : (List.range l.length).map (fun j => l.getD j x) = l := by
    rw [map_range_getD l x le_rfl, Nat.sub_self, List.replicate_zero, List.append_nil]
  conv_lhs => rw [← hl, List.flatMap_map]

/-- The chunks of `N` characters cover the string (R210). -/
theorem Dialect.le_ceilDiv_mul_chars (d : Dialect) (l : Nat) : l ≤ ceilDiv l d.chars * d.chars := by
  cases d <;> simp only [ceilDiv, Dialect.chars] <;> omega

/-! ### Encoding a string of legal characters -/

theorem padDigits_drop (d : Dialect) (digits : List Digit) (a : Nat) :
    padDigits d (digits.drop a) = (List.range d.chars).map fun k => digits.getD (a + k) 0 := by
  simp [padDigits, List.getD_eq_getElem?_getD]

/-- The padded digits of a chunk are those of any list the chunk begins. -/
theorem padDigits_take (d : Dialect) (digits : List Digit) :
    padDigits d (digits.take d.chars) = padDigits d digits := by
  refine List.map_congr_left fun k hk => ?_
  rw [List.getD_eq_getElem?_getD, List.getElem?_take_of_lt (List.mem_range.1 hk),
    ← List.getD_eq_getElem?_getD]

/-- Chunk `j` of a legal string encodes as the value of the digits from `j * N` on (R170, R210). -/
theorem encodeWord_chunkAt_map_charEntry {p : Params} (hw : p.wf = true) (d : Dialect)
    (digits : List Digit) (j : Nat) :
    encodeWord p d (chunkAt d (digits.map (charEntry p d)) j) =
      .ok (pack d (padDigits d (digits.drop (j * d.chars)))) := by
  rw [chunkAt, ← List.map_drop, ← List.map_take, encodeWord_map_charEntry hw, padDigits_take]

/-- The words of a legal string's chunks, by their digits. -/
def chunkWords (d : Dialect) (digits : List Digit) : List (BitVec d.width) :=
  (List.range (ceilDiv digits.length d.chars)).map fun j =>
    pack d (padDigits d (digits.drop (j * d.chars)))

/-- A legal string encodes as the words of its chunks (R211). -/
theorem encodeString_map_charEntry {p : Params} (hw : p.wf = true) (d : Dialect)
    (digits : List Digit) :
    encodeString p d (digits.map (charEntry p d)) = .ok (chunkWords d digits) := by
  rw [encodeString, encodeChunks_ok _ _ _ _ fun j _ _ => encodeWord_chunkAt_map_charEntry hw d digits j,
    List.length_map]
  simp only [Nat.zero_add, chunkWords]

/-! ### Decoding a list of words -/

/-- The digits of a legal string's words are its own and those of the pad spaces. -/
theorem flatMap_unpack_chunkWords (d : Dialect) (digits : List Digit) :
    (chunkWords d digits).flatMap (unpack d) = digits ++
      List.replicate (ceilDiv digits.length d.chars * d.chars - digits.length) 0 := by
  simp only [chunkWords, List.flatMap_map, unpack_pack (padDigits_length d _)]
  simp only [padDigits_drop]
  rw [flatMap_range_blocks (fun m => digits.getD m 0),
    map_range_getD digits 0 (d.le_ceilDiv_mul_chars _)]

/-- The characters of a word list are those of all its digits in order (R196, R216). -/
theorem decodeString_eq_map_unpack (p : Params) (d : Dialect) (ws : List (BitVec d.width)) :
    decodeString p d ws = (ws.flatMap (unpack d)).map (p.charOf d) :=
  List.map_flatMap.symm

/-- Settles O34: the words of the chunks hold the string's digits and then those of the pad spaces. -/
theorem decodeOfEncodeIsThePaddedText : Obligations.DecodeOfEncodeIsThePaddedText := by
  intro p d digits hw
  refine ⟨chunkWords d digits, encodeString_map_charEntry hw d digits, ?_⟩
  rw [decodeString_eq_map_unpack, flatMap_unpack_chunkWords, List.map_append, List.map_replicate,
    Params.charOf_zero hw]
  rfl

/-- Entry `m` of a decode is the character of digit `m mod N` of word `m div N` (R195, R216). -/
theorem decodeString_wordOperand (p : Params) (d : Dialect) (vs : List Word) :
    (decodeString p d (vs.map (wordOperand d))).map codeEntry =
      (List.range (vs.length * d.chars)).map fun m =>
        charEntry p d (entryDigit d (vs.getD (m / d.chars) 0#32) (m % d.chars)) := by
  rw [← flatMap_range_blocks, decodeString, List.flatMap_map, List.map_flatMap,
    flatMap_eq_flatMap_range vs 0#32]
  refine List.flatMap_congr fun j _ => ?_
  rw [decodeWord_wordOperand]
  refine List.map_congr_left fun k hk => ?_
  have hk := List.mem_range.1 hk
  have hword : (j * d.chars + k) / d.chars = j := by
    rw [Nat.add_comm, Nat.add_mul_div_right _ _ (by omega), Nat.div_eq_of_lt hk, Nat.zero_add]
  have hdigit : (j * d.chars + k) % d.chars = k := by
    rw [Nat.mul_add_mod_self_right, Nat.mod_eq_of_lt hk]
  rw [hword, hdigit]

end Sys2Proof
end

section
/-! PROOFS. The string commands `ENC` and `DEC` on legal strings and on words (R213, R214, R217, R218). -/

namespace Sys2Proof.Machine

open Sys2Proof.Claims

/-- A string command whose operands fit and hold a value makes its outcome of all of them, whatever the
unit's configuration (R213, R217). -/
theorem evalOf_string {i : Instr} {s : State} {ws : List Word} (hop : i.op = .enc ∨ i.op = .dec)
    (hfit : ¬lengthMisfit i s) (hl : s.len = ws.length) (hin : holdsInputs s ws) :
    evalOf i s = .next (outcomeOf i s.params ws) := by
  rw [← State.withInputs_next (outcomeOf i s.params) hin, ← hl]
  unfold lengthMisfit at hfit
  unfold evalOf outcomeOf
  rcases hop with hop | hop <;> simp only [hop, not_or] at hfit ⊢
  · exact (if_neg hfit.1).trans (if_neg hfit.2)
  · exact (if_neg hfit.1).trans (if_neg hfit.2)

/-- The outputs for a legal string are the values of its chunks (R213). -/
theorem encodeResult_map_charEntry {p : Params} (hw : p.wf = true) (d : Dialect)
    (digits : List Digit) :
    encodeResult p d (digits.map (charEntry p d)) =
      .ok ((List.range (ceilDiv digits.length d.chars)).map fun j =>
        BitVec.ofNat 32 (wordValue d (digits.drop (j * d.chars)))) := by
  rw [encodeResult, encodeString_map_charEntry hw]
  simp only [chunkWords, List.map_map, Function.comp_def, wordEntry_pack_padDigits]

/-- Settles O11: the characters are legal, so the outcome is the values of the string's chunks. -/
theorem encWritesTheWordsOfItsChunks : Obligations.EncWritesTheWordsOfItsChunks := by
  intro i s digits hop hw ht hl hfit hin
  refine exec_succeeds ht ?_
  rw [evalOf_string (.inl hop) hfit (by rw [hl, List.length_map]) hin, outcomeOf, hop]
  exact congrArg _ (encodeResult_map_charEntry hw i.dialect digits)

/-- Settles O18: the outcome is the characters of the words in the entries read. -/
theorem decWritesTheCharactersOfItsWords : Obligations.DecWritesTheCharactersOfItsWords := by
  intro i s vs hop hw ht hl hfit hin
  refine exec_succeeds ht ?_
  rw [evalOf_string (.inr hop) hfit hl hin, outcomeOf, hop]
  simp only [decodeResult, decodeString_wordOperand]

/-! ### No operands -/

/-- No operand is a string of no chunks and a list of no words (R214, R218). -/
theorem outcomeOf_string_nil {i : Instr} (hop : i.op = .enc ∨ i.op = .dec) (p : Params) :
    outcomeOf i p [] = .ok [] := by
  rcases hop with hop | hop <;> simp only [outcomeOf, hop]
  · have hchunks : ceilDiv 0 i.dialect.chars = 0 := by cases i.dialect <;> rfl
    rw [encodeResult, encodeString, List.length_nil, hchunks]
    rfl
  · rfl

/-- No operand always fits a string command, also in an ill-formed unit (R232). -/
theorem not_lengthMisfit_of_len_zero {i : Instr} {s : State} (hop : i.op = .enc ∨ i.op = .dec)
    (hlen : s.len = 0) : ¬lengthMisfit i s := by
  rcases hop with hop | hop <;> simp only [lengthMisfit, hop, hlen]
  · cases i.dialect <;> simp [Dialect.chars]
  · simp

/-- A string command with `LEN_IN` 0 succeeds with no output, in every unit (R214, R218). -/
theorem exec_string_of_nothing {i : Instr} {s : State} (hop : i.op = .enc ∨ i.op = .dec)
    (ht : s.inputsTouched = false) (hlen : s.lenIn = 0#32) :
    ∃ t, exec i s = .next t ∧ keepsRest s t ∧ succeedsWith s t [] := by
  have hzero : s.len = 0 := by rw [State.len, hlen]; rfl
  have hin : holdsInputs s [] := by simp [holdsInputs]
  refine exec_succeeds ht ?_
  rw [evalOf_string hop (not_lengthMisfit_of_len_zero hop hzero) (ws := []) hzero hin,
    outcomeOf_string_nil hop]

/-- Settles O12: `ENC` is a string command. -/
theorem encOfNothingWritesNothing : Obligations.EncOfNothingWritesNothing :=
  fun _ _ hop => exec_string_of_nothing (.inl hop)

/-- Settles O19: `DEC` is a string command. -/
theorem decOfNothingWritesNothing : Obligations.DecOfNothingWritesNothing :=
  fun _ _ hop => exec_string_of_nothing (.inr hop)

end Sys2Proof.Machine
end

section
/-! PROOFS. Whose turn a step is, and what a host action does to an idle unit (R235, R238, R244, R246). -/

namespace Sys2Proof.Machine

open Sys2Proof.Claims

/-- Settles O4: the unit's turn is the completion step of the decoded command. -/
theorem stepRunsTheDecodedCommand : Obligations.StepRunsTheDecodedCommand :=
  fun _ _ => step_of_unitDue

/-- A word that fits in 32 bits is placed as it is. -/
@[simp] theorem tableWord_toNat (v : Word) : tableWord 32 v.toNat = v := by
  rw [tableWord, Nat.mod_eq_of_lt v.isLt, BitVec.ofNat_toNat, BitVec.setWidth_eq]

/-- A placed word runs, and the pause before the host's actions makes it the unit's turn. -/
theorem State.withFetchWord_unitDue {s : State} (hw : s.params.wf = true) (nbits w : Nat) :
    unitDue (s.withFetchWord nbits w) :=
  ⟨hw, rfl, .inr ⟨_, _, rfl, .inl rfl⟩⟩

/-- Settles O5: it is the unit's turn, and `CUR_CMD` holds the word of the command. -/
theorem placedCommandRunsNext : Obligations.PlacedCommandRunsNext := by
  intro s i hw
  have hd : decode (s.withFetchWord 32 (encode i).toNat).curCmd = .ok i := by
    simp [State.withFetchWord]
  exact ⟨step_of_unitDue (State.withFetchWord_unitDue hw _ _) hd, rfl, rfl⟩

theorem State.nextMove_idle {s : State} (hidle : s.busy = false) (hp : s.pending = []) :
    s.nextMove = .idle := by
  simp [State.nextMove, hp, hidle]

/-- Settles O10: neither the unit nor the host has anything to do. -/
theorem idleUnitKeepsEverything : Obligations.IdleUnitKeepsEverything :=
  fun _ hw hidle hp => step_idle hw (State.nextMove_idle hidle hp)

/-- Settles O9: only the unit's move can stop, and a host action or an idle step answers a state. -/
theorem hostAccessesNeverStop : Obligations.HostAccessesNeverStop := by
  intro s hw notDue
  cases hm : s.nextMove with
  | unit => exact absurd ((unitDue_iff s).2 ⟨hw, hm⟩) notDue
  | host a rest => exact ⟨_, step_host hw hm⟩
  | idle => exact ⟨_, step_idle hw hm⟩

/-- A `CMD` write while a command runs is dropped (R235). -/
theorem State.acceptCommand_busy {s : State} (v : Word) (hbusy : s.busy = true) :
    s.acceptCommand v = s :=
  if_pos hbusy

/-- Settles O36: a `CMD` write is `AcceptCommand`, by the two cases of `BUSY`. -/
theorem commandWriteIsAcceptedOrDropped : Obligations.CommandWriteIsAcceptedOrDropped := by
  intro s rest v h
  refine ⟨fun hbusy => ?_, fun hidle => ?_⟩
  · exact hasNoEffect_of_memWrite h
      ((State.memWrite_cmd _ v).trans (State.acceptCommand_busy v (by simpa using hbusy)))
  · obtain ⟨_, -, hstep⟩ := step_of_cmdWrite_idle hidle h
    exact ⟨_, hstep, rfl, rfl, rfl, rfl, rfl, rfl, rfl, rfl, rfl, rfl, rfl, rfl, rfl, rfl, rfl⟩

/-- The results of the command completed last are as before (R238). -/
def keepsResults (s t : State) : Prop :=
  t.done = s.done ∧ t.err = s.err ∧ t.lenOut = s.lenOut ∧ t.errChar = s.errChar ∧
    t.errPos = s.errPos ∧ t.outBuf = s.outBuf ∧ t.outDraw = s.outDraw

/-- What completes, accepts and resets nothing writes no result (R238). -/
theorem StepEffect.keeps_results {s t : State} (h : StepEffect s t) (hs : s.busy = false)
    (ht : t.busy = false) (noReset : ∀ rest, ¬hostDoes s .reset rest) : keepsResults s t := by
  have notDue : ¬unitDue s := fun ⟨_, hbusy, _⟩ => by simp [hs] at hbusy
  cases h with
  | completesFree due | completes _ due => exact absurd due notDue
  | accepts => simp at ht
  | storesLenIn | storesInBuf => exact ⟨rfl, rfl, rfl, rfl, rfl, rfl, rfl⟩
  | resets rest does => exact absurd does (noReset rest)
  | keeps _ _ kept =>
    obtain ⟨⟨-, -, hdone, herr, -, hlen, hchar, hpos, -, hout, -, hdraw⟩, -⟩ := kept
    exact ⟨hdone, herr, hlen, hchar, hpos, hout, hdraw⟩

/-- Settles O55: of all that a step can do, only completion, acceptance and reset write a result. -/
theorem resultsStayUntilTheNextCommandOrReset : Obligations.ResultsStayUntilTheNextCommandOrReset :=
  fun _ _ h => (step_effect h).keeps_results

end Sys2Proof.Machine
end

section
/-! PROOFS. What every command keeps (R236), and exactly when one raises `LENGTH` (R232, R233). -/

namespace Sys2Proof.Machine

open Sys2Proof.Claims

/-! ### What a command computes, in every unit -/

/-- A command raises `LENGTH`, is refused, or is decided by the entries it reads, whatever the unit's
configuration. -/
theorem evalOf_cases (i : Instr) (s : State) :
    evalOf i s = .next (.err .length) ∨ evalOf i s = .refused .encwOverlong ∨
      evalOf i s = s.withInputs (readCount i s) (outcomeOf i s.params) := by
  unfold evalOf readCount outcomeOf
  cases i.op <;> simp only
  case enc => unfold evalEnc; split_ifs <;> simp
  case encw => unfold evalEncw; split_ifs <;> simp
  case dec => unfold evalDec; split_ifs <;> simp
  case decw => unfold evalDecw; split_ifs <;> simp
  case alpha => exact .inr (.inr rfl)
  case lookup => unfold evalLookup; split_ifs <;> simp

/-- The outcome of a command is `LENGTH`, or what it makes of the entries it reads. -/
theorem evalOf_next_cases {i : Instr} {s : State} {r : CmdResult} (h : evalOf i s = .next r) :
    r = .err .length ∨ ∃ ws, ws.length = readCount i s ∧ r = outcomeOf i s.params ws := by
  rcases evalOf_cases i s with e | e | e <;> rw [e] at h
  · injection h with h
    exact .inl h.symm
  · cases h
  · obtain ⟨ws, hl, -, hr⟩ := State.withInputs_cases h
    exact .inr ⟨ws, hl, hr⟩

/-! ### Output counts -/

/-- The outputs a command makes of its entries are as many as R116 says. -/
theorem outcomeOf_ok_length {i : Instr} {s : State} {p : Params} {ws out : List Word}
    (hl : ws.length = readCount i s) (h : outcomeOf i p ws = .ok out) :
    out.length = writeCount i s := by
  unfold readCount at hl
  unfold outcomeOf at h
  unfold writeCount
  cases hop : i.op <;> simp only [hop] at hl h ⊢
  case enc =>
    unfold encodeResult at h
    split at h
    · cases h
    · next hws =>
      injection h with h
      rw [← h, List.length_map, encodeChunks_length hws, hl, ceilDiv]
  case encw =>
    unfold encodeWordResult at h
    split at h <;> cases h
    rfl
  case dec =>
    injection h with h
    rw [← h, List.length_map, decodeString_length, List.length_map, hl]
  case decw =>
    injection h with h
    rw [← h, List.length_map, decodeWord_length]
  case alpha =>
    injection h with h
    rw [← h, List.length_map, List.length_finRange]
  case lookup =>
    unfold lookupResult at h
    split at h <;> cases h
    rfl

/-- A command that succeeds has as many outputs as R116 says, in every unit. -/
theorem evalOf_ok_length {i : Instr} {s : State} {out : List Word}
    (h : evalOf i s = .next (.ok out)) : out.length = writeCount i s := by
  rcases evalOf_next_cases h with e | ⟨ws, hl, hr⟩
  · cases e
  · exact outcomeOf_ok_length hl hr.symm

/-! ### The frame of a command -/

/-- Completion with free results leaves the inputs and the host's side as they were (R266). -/
theorem State.finishAny_keepsRest (s : State) : keepsRest s s.finishAny :=
  ⟨rfl, rfl, rfl, rfl, rfl, rfl, rfl, rfl⟩

theorem State.finish_keepsRest (s : State) : (r : CmdResult) → keepsRest s (s.finish r)
  | .ok out => s.finishOk_keepsRest out
  | .err e => s.finishErr_keepsRest e

/-- A completion with `ERR` = 0 is one with outputs (R39, R236). -/
theorem State.finish_err_eq_none {s : State} {r : CmdResult} (h : (s.finish r).err = .none) :
    ∃ out, r = .ok out := by
  cases r with
  | ok out => exact ⟨out, rfl⟩
  | err e => exact absurd h e.errCode_ne_none

/-- Settles O26: a command's step is a completion, and one with outputs writes as many entries as R116
says. -/
theorem commandFrame : Obligations.CommandFrame := by
  intro i s t h
  rcases exec_cases h with ⟨ht, rfl⟩ | ⟨-, r, hr, rfl⟩
  · exact ⟨s.finishAny_keepsRest, rfl, rfl, fun hu => by simp [ht] at hu⟩
  · obtain ⟨-, -, -, -, -, -, -, -, hbusy, hdone⟩ := s.finish_frame r
    refine ⟨s.finish_keepsRest r, hbusy, hdone, fun _ hnone => ?_⟩
    obtain ⟨out, rfl⟩ := State.finish_err_eq_none hnone
    obtain ⟨-, -, -, -, -, -, -, habove, hdraw, -⟩ := s.finishOk_succeedsWith out
    exact ⟨hdraw, fun j hj => habove j ((evalOf_ok_length hr).trans_le hj)⟩

/-! ### `LENGTH` -/

/-- The entries a command reads never make it raise `LENGTH` (R233). -/
theorem outcomeOf_ne_length (i : Instr) (p : Params) (ws : List Word) :
    outcomeOf i p ws ≠ .err .length := by
  unfold outcomeOf
  cases i.op <;> simp only
  case enc => unfold encodeResult; split <;> simp
  case encw => unfold encodeWordResult; split <;> simp
  case dec => simp [decodeResult]
  case decw => simp [decodeWordResult]
  case alpha => simp
  case lookup => unfold lookupResult; split <;> simp

/-- With operands that fit, no command of a well-formed unit raises `LENGTH` (R232). -/
theorem evalOf_ne_length {i : Instr} {s : State} (hw : s.params.wf = true)
    (hfit : ¬lengthMisfit i s) : evalOf i s ≠ .next (.err .length) := by
  intro h
  by_cases hlong : overlongRefused i s
  · rw [evalOf_overlong hfit hlong] at h
    cases h
  · rw [evalOf_reads hw hfit hlong] at h
    obtain ⟨ws, -, -, hr⟩ := State.withInputs_cases h
    exact outcomeOf_ne_length i s.params ws hr.symm

/-- Only the error `LENGTH` completes with its code (R39). -/
theorem State.finish_err_eq_length {s : State} {r : CmdResult} (h : (s.finish r).err = .length) :
    r = .err .length := by
  cases r with
  | ok out => cases h
  | err e =>
    cases e with
    | length => rfl
    | illegalChar | illegalCmd => cases h

/-- Settles O24: a misfit is an error before any entry is read, and operands that fit never raise it. -/
theorem lengthIsRaisedExactlyOnMisfit : Obligations.LengthIsRaisedExactlyOnMisfit := by
  intro i s hw ht
  refine ⟨fun hmis => exec_fails ht (evalOf_misfit hmis), fun hfit t h herr => ?_⟩
  rcases exec_cases h with ⟨htouched, -⟩ | ⟨-, r, hr, rfl⟩
  · simp [ht] at htouched
  · exact evalOf_ne_length hw hfit (State.finish_err_eq_length herr ▸ hr)

end Sys2Proof.Machine
end

section
/-! PROOFS. The illegal character that a whole string reports (R212, R215, R234), for both dialects. -/

namespace Sys2Proof

open Sys2Proof.Machine Sys2Proof.Claims

/-- Legal characters are those of some digits. -/
theorem exists_digits_of_legal {p : Params} {d : Dialect} {cs : List Word}
    (h : ∀ c ∈ cs, legalChar p d c) :
    ∃ digits : List Digit, cs = digits.map (charEntry p d) := by
  have hmem : cs ∈ Set.range (List.map (charEntry p d)) := by
    rw [Set.range_list_map]
    exact fun c hc => (h c hc).imp fun _ e => e.symm
  obtain ⟨digits, e⟩ := hmem
  exact ⟨digits, e.symm⟩

theorem chunkAt_getElem? (d : Dialect) (s : List Word) (i : Nat) {m : Nat} (hm : m < d.chars) :
    (chunkAt d s i)[m]? = s[i * d.chars + m]? := by
  rw [chunkAt, List.getElem?_take_of_lt hm, List.getElem?_drop]

/-- An entry of a chunk is one of the string, at the chunk's place (R210). -/
theorem chunkAt_getElem?_eq_some {d : Dialect} {s : List Word} {i m : Nat} {c : Word}
    (h : (chunkAt d s i)[m]? = some c) : m < d.chars ∧ s[i * d.chars + m]? = some c := by
  have hm : m < d.chars :=
    (List.getElem?_eq_some_iff.1 h).1.trans_le (List.length_take_le _ _)
  exact ⟨hm, (chunkAt_getElem? d s i hm).symm.trans h⟩

/-- A chunk of legal characters encodes. -/
theorem encodeWord_legal {p : Params} (hw : p.wf = true) {d : Dialect} {cs : List Word}
    (h : ∀ c ∈ cs, legalChar p d c) : ∃ w, encodeWord p d cs = .ok w := by
  obtain ⟨digits, rfl⟩ := exists_digits_of_legal h
  exact ⟨_, encodeWord_map_charEntry hw d digits⟩

/-- A string is reported at its first illegal character, with the position from 1: the chunk that holds it
is the first that fails, and fails at it (R211, R212). -/
theorem encodeString_illegal {p : Params} (hw : p.wf = true) {d : Dialect} {cs : List Word} {k : Nat}
    {c : Word} (hk : cs[k]? = some c) (hc : ¬legalChar p d c)
    (hbefore : ∀ j e, j < k → cs[j]? = some e → legalChar p d e) :
    encodeString p d cs = .error { char := c, pos := k + 1 } := by
  have hN : 0 < d.chars := by cases d <;> decide
  have hplace : k / d.chars * d.chars + k % d.chars = k := Nat.div_add_mod' k d.chars
  have hlocal : k % d.chars < d.chars := Nat.mod_lt k hN
  have hcover := d.le_ceilDiv_mul_chars cs.length
  have hlen : k < cs.length := (List.getElem?_eq_some_iff.1 hk).1
  have hchunk : k / d.chars < 0 + ceilDiv cs.length d.chars := by
    rw [Nat.zero_add]
    exact Nat.div_lt_of_lt_mul (by rw [Nat.mul_comm]; omega)
  have hfails : encodeWord p d (chunkAt d cs (k / d.chars)) =
      .error { char := c, pos := k % d.chars + 1 } := by
    refine encodeWord_illegal hw hlocal (by rw [chunkAt_getElem? d cs _ hlocal, hplace, hk]) hc
      fun m e hm he => ?_
    exact hbefore _ e (by omega) (chunkAt_getElem?_eq_some he).2
  have hencodes : ∀ j, 0 ≤ j → j < k / d.chars → ∃ w, encodeWord p d (chunkAt d cs j) = .ok w := by
    intro j _ hj
    refine encodeWord_legal hw fun e he => ?_
    obtain ⟨m, he⟩ := List.mem_iff_getElem?.1 he
    obtain ⟨hm, he⟩ := chunkAt_getElem?_eq_some he
    have hnext : (j + 1) * d.chars ≤ k / d.chars * d.chars := Nat.mul_le_mul_right _ hj
    rw [Nat.succ_mul] at hnext
    exact hbefore _ e (by omega) he
  rw [encodeString, encodeChunks_error cs 0 _ _ _ (Nat.zero_le _) hchunk hfails hencodes,
    ← Nat.add_assoc, hplace]

end Sys2Proof

namespace Sys2Proof.Machine

open Sys2Proof.Claims

/-- Settles O13: the encode of the string fails at its first illegal character, and its record is the
command's. -/
theorem encReportsTheFirstIllegalCharacter : Obligations.EncReportsTheFirstIllegalCharacter := by
  intro i s cs k c hop hw ht hl hfit hin hk hc hbefore
  refine exec_fails (e := .illegalChar c (k + 1)) ht ?_
  rw [evalOf_string (.inl hop) hfit hl hin, outcomeOf, hop]
  simp only [encodeResult, encodeString_illegal hw hk hc hbefore]

end Sys2Proof.Machine
end

section
/-! PROOFS. Reset (R260, R261, R263), and the two hazards of a running command: inputs written (R266) and
results read (R267) meanwhile. -/

namespace Sys2Proof.Machine

open Sys2Proof.Claims

/-! ### Results read while a command runs -/

theorem State.readOutBuf_busy {s : State} (i : Nat) (hbusy : s.busy = true) : s.readOutBuf i = s.anyWord :=
  if_pos hbusy

theorem State.readOutBuf_written {s : State} {i : Nat} {v : Word} (hidle : s.busy = false)
    (h : Buf.read s.outBuf i = some v) : s.readOutBuf i = (v, s) := by
  simp [State.readOutBuf, State.readOutBufIdle, hidle, h]

/-- An entry that holds a value is one of the buffer's (R45, R46). -/
theorem Buf.lt_depth_of_read {depth i : Nat} {b : Buf} {v : Word} (hwf : Buf.wf depth b = true)
    (h : Buf.read b i = some v) : i < depth := by
  by_contra hi
  simp [Buf.read_beyond hwf (Nat.le_of_not_lt hi)] at h

/-- A bus read reaches whole entries, so one in the `OUT_BUF` window reaches a mapped entry (R83). -/
theorem exists_outBuf_index_of_hostReads {s : State} {rest : List HostAction} {off : Nat}
    (h : hostReads s rest off) (hlow : 0x20000 ≤ off) (hhigh : off < 0x20000 + 4 * s.params.outDepth) :
    ∃ i, i < s.params.outDepth ∧ off = 0x20000 + 4 * i := by
  obtain ⟨addr, ho, -⟩ := h
  exact ⟨(off - 0x20000) / 4, by omega, by omega⟩

/-- A read of any result while a command runs draws a free value (R267). -/
theorem readGivesFree_of_busy {s : State} {rest : List HostAction} {off : Nat} (hbusy : s.busy = true)
    (h : hostReads s rest off)
    (hoff : off = 0x0C ∨ off = 0x10 ∨ off = 0x14 ∨
      (0x20000 ≤ off ∧ off < 0x20000 + 4 * s.params.outDepth)) : readGivesFree s rest off := by
  refine readGivesFree_of_memRead h ?_
  rcases hoff with rfl | rfl | rfl | ⟨hlow, hhigh⟩
  · exact (State.memRead_lenOut _).trans (State.readResult_busy _ hbusy)
  · exact (State.memRead_errChar _).trans (State.readResult_busy _ hbusy)
  · exact (State.memRead_errPos _).trans (State.readResult_busy _ hbusy)
  · obtain ⟨i, hi, rfl⟩ := exists_outBuf_index_of_hostReads h hlow hhigh
    exact (memRead_outBuf_of_hostReads h hi).trans (State.readOutBuf_busy i hbusy)

/-- While a command runs, `STATUS` is the `BUSY` bit alone (R38, R235). -/
theorem State.statusWord_of_busy {s : State} (hf : s.flagsOk) (hc : s.clearedOk) (hbusy : s.busy = true) :
    s.statusWord = 1#32 := by
  have hdone : s.done = false := Bool.eq_false_iff.2 fun hd => hf ⟨hbusy, hd⟩
  obtain ⟨herr, -⟩ := hc hdone
  rw [State.statusWord, hbusy, hdone, herr]
  rfl

/-- Settles O41: the exact locations read as stored in every state, and a result by the two cases of `BUSY`. -/
theorem resultsReadFreeWhileBusyAndExactAfter : Obligations.ResultsReadFreeWhileBusyAndExactAfter := by
  intro s rest off hm hf hc h
  obtain ⟨hin, hout⟩ := s.memoryWf_iff.1 hm
  obtain ⟨-, -, lenInReads, inDepthReads, outDepthReads, entryReads⟩ := registersReadAsStored s rest off h
  refine ⟨fun hbusy => ⟨?_, lenInReads, ?_, inDepthReads, outDepthReads, readGivesFree_of_busy hbusy h⟩,
    fun hidle => ⟨?_, ?_, ?_, ?_⟩⟩
  · rintro rfl
    rw [← State.statusWord_of_busy hf hc hbusy]
    exact readGives_of_memRead h (State.memRead_status _)
  · exact fun i v ho hv => entryReads i v (Buf.lt_depth_of_read hin hv) ho hv
  · rintro rfl
    exact readGives_of_memRead h ((State.memRead_lenOut _).trans (State.readResult_idle _ hidle))
  · rintro rfl
    exact readGives_of_memRead h ((State.memRead_errChar _).trans (State.readResult_idle _ hidle))
  · rintro rfl
    exact readGives_of_memRead h ((State.memRead_errPos _).trans (State.readResult_idle _ hidle))
  · rintro i v rfl hv
    exact readGives_of_memRead h <|
      (memRead_outBuf_of_hostReads h (Buf.lt_depth_of_read hout hv)).trans
        (State.readOutBuf_written hidle hv)

/-! ### Inputs written while a command runs -/

theorem State.writeLenIn_keepsRegisters (s : State) (rest : List HostAction) (v : Word) :
    keepsRegisters (s.withLenIn v) ((s.hostTakes rest).writeLenIn v) := by
  simp [keepsRegisters]

theorem State.writeInBuf_keepsRegisters (s : State) (rest : List HostAction) (i : Nat) (v : Word) :
    keepsRegisters (s.withInBuf (Buf.write s.inBuf i v)) ((s.hostTakes rest).writeInBuf i v) := by
  simp [keepsRegisters]

/-- Only an acceptance or a reset takes back the mark, and neither leaves a running command running (R235,
R261, R266). -/
theorem StepEffect.keeps_mark {s t : State} (h : StepEffect s t) (hbusy : s.busy = true)
    (ht : s.inputsTouched = true) (htbusy : t.busy = true) : t.inputsTouched = true := by
  cases h with
  | completesFree => exact ht
  | completes _ _ untouched => simp [ht] at untouched
  | accepts _ _ _ _ idle => simp [hbusy] at idle
  | storesLenIn | storesInBuf => simp [ht]
  | resets => simp at htbusy
  | keeps _ _ kept => exact kept.2.trans ht

/-- The completion of a marked command leaves every result free (R266). -/
theorem State.finishAny_completesFree (s : State) : completesFree s s.finishAny :=
  ⟨rfl, rfl, rfl, rfl, rfl, rfl, fun _ => State.readOutBuf_freed rfl rfl rfl, rfl⟩

/-- The unit's step on a marked command completes it with free results, whatever its word (R266). -/
theorem unitStep_of_touched {s : State} (ht : s.inputsTouched = true) : unitStep s = .next s.finishAny := by
  rcases unitStep_eq_complete s with ⟨i, -, e⟩ | ⟨-, e⟩ <;> exact e.trans (State.complete_touched _ ht)

/-- Settles O45: the write sets the mark, no step of a running command takes it back, and completion looks at
it first. -/
theorem inputsWrittenWhileBusyMakeTheResultsFree :
    Obligations.InputsWrittenWhileBusyMakeTheResultsFree := by
  refine ⟨fun s rest v hbusy => ⟨fun h => ?_, fun i hi h => ?_⟩, fun s t hbusy ht h => ?_,
    fun s due ht => ?_⟩
  · exact ⟨_, State.memWrite_lenIn _ v ▸ step_of_hostWrites h, rfl, State.memRead_lenIn _,
      s.writeLenIn_keepsRegisters rest v, by simp [hbusy], ⟨rfl, rfl⟩, ⟨rfl, rfl⟩⟩
  · have stored : Buf.read ((s.hostTakes rest).writeInBuf i v).inBuf i = some v :=
      Buf.read_write_same s.inBuf i v
    exact ⟨_, State.memWrite_inBuf (s := s.hostTakes rest) v hi ▸ step_of_hostWrites h, stored,
      fun j hj => Buf.read_write_other s.inBuf v hj,
      (State.memRead_inBuf (s := (s.hostTakes rest).writeInBuf i v) hi).trans
        (State.readInBuf_written stored),
      s.writeInBuf_keepsRegisters rest i v, by simp [hbusy], ⟨rfl, rfl⟩, ⟨rfl, rfl⟩⟩
  · exact (step_effect h).keeps_mark hbusy ht
  · obtain ⟨hw, hm⟩ := (unitDue_iff s).1 due
    exact ⟨_, (step_unit hw hm).trans (unitStep_of_touched ht), s.finishAny_completesFree,
      s.finishAny_keepsRest⟩

/-- Settles O46: every meaning is a completion, and completion looks at the mark first. -/
theorem touchedCommandCompletesFree : Obligations.TouchedCommandCompletesFree :=
  fun i s ht => ⟨s.finishAny, (exec_eq_complete i s).trans (State.complete_touched _ ht),
    s.finishAny_completesFree, s.finishAny_keepsRest⟩

/-! ### Reset -/

/-- A reset that comes next acts, whatever the unit is about to do (R260). -/
theorem hostDoes_reset {s : State} {rest : List HostAction} (hw : s.params.wf = true)
    (hp : s.pending = .reset :: rest) : hostDoes s .reset rest :=
  (hostDoes_iff s .reset rest).2 ⟨hw, State.nextMove_reset hp⟩

theorem not_unitDue_of_idle {s : State} (hidle : s.busy = false) : ¬unitDue s :=
  fun ⟨_, hbusy, _⟩ => by simp [hidle] at hbusy

/-- Settles O47: the step is the reset input, which writes each register. -/
theorem resetClearsTheUnit : Obligations.ResetClearsTheUnit :=
  fun s rest does => ⟨(s.withPending rest).resetUnit, step_of_hostDoes does, rfl, rfl, rfl, rfl, rfl, rfl,
    rfl, rfl, rfl, rfl, Buf.read_nil, Buf.read_nil, rfl, rfl, rfl⟩

/-- Settles O48: reset clears `BUSY`, and without it no completion step is due. -/
theorem resetAbandonsTheRunningCommand : Obligations.ResetAbandonsTheRunningCommand := by
  intro s rest _ does
  obtain ⟨t, hstep, hidle, hdone, -, -, hlenOut, -, -, -, -, -, -, hout, -⟩ :=
    resetClearsTheUnit s rest does
  exact ⟨t, hstep, not_unitDue_of_idle hidle, hlenOut, hdone, hout⟩

/-- Settles O58: a step leaves the unit well formed, and there a reset that comes next acts. -/
theorem resetComesBetweenAnyTwoSteps : Obligations.ResetComesBetweenAnyTwoSteps := by
  intro s t rest h
  have hw : t.params.wf = true := (step_effect h).params_eq ▸ (step_cases h).1
  have does : hostDoes (t.withPending (.reset :: rest)) .reset rest := hostDoes_reset hw rfl
  obtain ⟨u, hstep, hidle, hdone, herr, hlenIn, hlenOut, hchar, hpos, -, -, hp, hin, hout, -⟩ :=
    resetClearsTheUnit _ rest does
  exact ⟨not_unitDue_of_hostDoes does, u, hstep, hidle, hdone, herr, hlenIn, hlenOut, hchar, hpos, hp, hin,
    hout⟩

/-! ### The state after reset -/

/-- The default alphabets and sizes are well formed (R13, R140 to R143). -/
theorem defaultParams_wf : Params.default.wf = true := by decide

/-- Settles O49: the state after reset, field by field. -/
theorem resetStateHoldsTheResetValues : Obligations.ResetStateHoldsTheResetValues :=
  ⟨rfl, rfl, rfl, rfl, rfl, rfl, rfl, rfl, rfl, Buf.read_nil, Buf.read_nil⟩

/-- Settles O50: the defaults are well formed, and with `BUSY` and `DONE` 0 the invariant asks for cleared
results only. -/
theorem resetMeetsTheInvariant : Obligations.ResetMeetsTheInvariant :=
  ⟨defaultParams_wf, reset_memoryWf, nofun, fun _ => ⟨rfl, rfl, rfl, rfl⟩, nofun, nofun⟩

end Sys2Proof.Machine
end
